-- ==== Sys2Proof/Word.lean ====
section
/-! DEFINITION. The word types of the engine, each of the width the spec gives it. -/

namespace Sys2Proof

/-- The `pc` operand: a 32-bit unsigned integer, every value legal (R21, R74). -/
abbrev Pc := BitVec 32

/-- A command word (R70). -/
abbrev CmdWord := BitVec 64

/-- A configuration word (R82). -/
abbrev CfgWord := BitVec 32

/-- A response word (R81). -/
abbrev RspWord := BitVec 3

/-- A branch direction, held as one bit: `true` is Taken (1), `false` is NotTaken (0) (R15). -/
abbrev Dir := Bool

/-- A 2-bit saturating counter (R35, R100). -/
abbrev Counter := BitVec 2

/-- Storage of a history whose width is configured: the low `G` (or `L`) bits are the register, the
others are 0 in every reachable state (R28, R32; the largest legal width is 32, R9). -/
abbrev Hist := BitVec 32

/-- The Perceptron's global history, 12 bits whatever `G` is (R28, R190). -/
abbrev PercHist := BitVec 12

/-- A bias or a weight: a 6-bit two's complement field (R34). -/
abbrev Weight := BitVec 6

end Sys2Proof
end

