-- ==== Sys2Proof/Config.lean ====
section
/-! DEFINITION. What an implementation fixes, and the free values. The constants without a body are
the parameters the spec marks OPEN (R9): nothing can be proved of their values beyond their type. -/

namespace Sys2Proof

/-- `G_MAX - 1`, for a build-time parameter `G_MAX` in 1..32 (R9, D7). -/
opaque Config.gMaxPred : Fin 32

/-- `L_MAX - 1`, for a build-time parameter `L_MAX` in 1..32 (R9, D7). -/
opaque Config.lMaxPred : Fin 32

/-- `P_MAX - 1`, for a build-time parameter `P_MAX` in 1..32 (R9, D7). -/
opaque Config.pMaxPred : Fin 32

/-- `G_MAX`, the largest legal `G` (R9). -/
def Config.gMax : Nat := Config.gMaxPred.val + 1

/-- `L_MAX`, the largest legal `L` (R9). -/
def Config.lMax : Nat := Config.lMaxPred.val + 1

/-- `P_MAX`, the largest legal `P` (R9). -/
def Config.pMax : Nat := Config.pMaxPred.val + 1

/-- `PERC_SEED` (R45, D10): the draw of the SEEDED mode, from source `d`, for reset number `n`, perceptron
row `r` and position `k` (0 is the bias, `i + 1` is the weight of history bit `i`). The three values stand
for -1, 0 and +1 (`Machine.seedWeight`). Every reset draws afresh (R244), hence the argument `n`; engines
share nothing (R225), hence the source `d`. DESIGN CHOICE, log entry 4: the spec ties no draw to anything;
here two resets of one source with one number draw the same weights, and no others are tied. -/
opaque Config.percSeed (d n r k : Nat) : Fin 3

/-- The configuration word `State.reset` has latched. DESIGN CHOICE, log entry 2: the spec's reset
value is the configuration input (R46); this is the word whose every field is omitted (R85). -/
def Config.bootCfg : CfgWord := 0x00000000#32

end Sys2Proof
end

