-- ==== Sys2Proof/Syntax.lean ====
section
/-! DEFINITION. The strategies, the commands (one constructor per row of the opcode table), the error
codes and the host's moves. -/

namespace Sys2Proof

/-- The four strategies, in the order of `CFG.STRATEGY` (R4, R24). -/
inductive Strategy where
  | static | gshare | tournament | perceptron
deriving DecidableEq, Repr

/-- The eight commands (R75): a strategy and one of the two operations, with their operands. -/
inductive Instr where
  /-- STATIC.PREDICT (R150) -/
  | staticPredict (pc : Pc)
  /-- STATIC.TRAIN (R151) -/
  | staticTrain (pc : Pc) (outcome : Dir)
  /-- GSHARE.PREDICT (R160) -/
  | gsharePredict (pc : Pc)
  /-- GSHARE.TRAIN (R161) -/
  | gshareTrain (pc : Pc) (outcome : Dir)
  /-- TOURN.PREDICT (R173) -/
  | tournPredict (pc : Pc)
  /-- TOURN.TRAIN (R175) -/
  | tournTrain (pc : Pc) (outcome : Dir)
  /-- PERC.PREDICT (R191) -/
  | percPredict (pc : Pc)
  /-- PERC.TRAIN (R192) -/
  | percTrain (pc : Pc) (outcome : Dir)
deriving DecidableEq, Repr

/-- The strategy a command belongs to (R75). -/
def Instr.strategy : Instr → Strategy
  | .staticPredict _ => .static
  | .staticTrain _ _ => .static
  | .gsharePredict _ => .gshare
  | .gshareTrain _ _ => .gshare
  | .tournPredict _ => .tournament
  | .tournTrain _ _ => .tournament
  | .percPredict _ => .perceptron
  | .percTrain _ _ => .perceptron

/-- Whether a command is one of the four PREDICTs (R71). -/
def Instr.isPredict : Instr → Bool
  | .staticPredict _ => true
  | .staticTrain _ _ => false
  | .gsharePredict _ => true
  | .gshareTrain _ _ => false
  | .tournPredict _ => true
  | .tournTrain _ _ => false
  | .percPredict _ => true
  | .percTrain _ _ => false

/-- The `pc` operand of a command (R74). -/
def Instr.pc : Instr → Pc
  | .staticPredict pc => pc
  | .staticTrain pc _ => pc
  | .gsharePredict pc => pc
  | .gshareTrain pc _ => pc
  | .tournPredict pc => pc
  | .tournTrain pc _ => pc
  | .percPredict pc => pc
  | .percTrain pc _ => pc

/-- The error codes of a response (R211). -/
inductive Err where
  | ok | illegalOp | rsvdNonzero | cfgInvalid
deriving DecidableEq, Repr

/-- What the host can do to the engine (R256), apart from looking at the status output, for which it
sends nothing. -/
inductive HostInput where
  /-- Assert reset with `cfg` on the configuration input, hold it, release it (R240, R245). `lost` are
  the commands the reset swallows: one in flight when it is asserted, and those presented while it is
  asserted. None of them gets a response (R242). -/
  | reset (cfg : CfgWord) (lost : List CmdWord)
  /-- Offer one command word (R70). -/
  | command (w : CmdWord)
deriving DecidableEq, Repr

end Sys2Proof
end

