-- ==== Sys2Proof/WellFormed.lean ====
section
/-! DEFINITION. When a command is a command of an engine: the word does not hold the strategy, so a
command means something only to the engine that is configured for it (R75). Every operand has its
exact width in its type and every value of it is legal (R74, R216), so nothing else can be ill-formed. -/

namespace Sys2Proof

/-- The command is one of the two an engine of strategy `st` has (R75, R134). -/
def Instr.wf (st : Strategy) (i : Instr) : Bool := decide (i.strategy = st)

end Sys2Proof
end

