-- ==== Sys2Proof/Decode.lean ====
section
/-! DEFINITION. Reading command words and configuration words (30_encoding), and, after that, writing
them. Decoding is total on the 2^64 words and rejects by the error's name. -/

namespace Sys2Proof

/-! ## Command words -/

/-- Field `OP`, bits 1:0 (R70). -/
def cmdOp (w : CmdWord) : BitVec 2 := w.extractLsb' 0 2

/-- Field `OUT`, bit 2 (R70, R72). -/
def cmdOut (w : CmdWord) : Dir := w.getLsbD 2

/-- Field `RSVD`, bits 31:3 (R70, R73). -/
def cmdRsvd (w : CmdWord) : BitVec 29 := w.extractLsb' 3 29

/-- Field `PC`, bits 63:32 (R70, R74). -/
def cmdPc (w : CmdWord) : Pc := w.extractLsb' 32 32

/-- The PREDICT of a strategy (R75). -/
def predictOf (st : Strategy) (pc : Pc) : Instr :=
  match st with
  | .static => .staticPredict pc
  | .gshare => .gsharePredict pc
  | .tournament => .tournPredict pc
  | .perceptron => .percPredict pc

/-- The TRAIN of a strategy (R75). -/
def trainOf (st : Strategy) (pc : Pc) (o : Dir) : Instr :=
  match st with
  | .static => .staticTrain pc o
  | .gshare => .gshareTrain pc o
  | .tournament => .tournTrain pc o
  | .perceptron => .percTrain pc o

/-- Decoding of a command word by an engine of strategy `st`, with the checks in the order of R132
(the check of `CFG_ERR`, which comes before them, is `Machine.acceptCommand`'s). -/
def decode (st : Strategy) (w : CmdWord) : Except Err Instr :=
  if cmdOp w = 0b00#2 ∨ cmdOp w = 0b11#2 then .error .illegalOp
  else if cmdRsvd w ≠ 0#29 then .error .rsvdNonzero
  else if cmdOp w = 0b01#2 ∧ cmdOut w = true then .error .rsvdNonzero
  else if cmdOp w = 0b01#2 then .ok (predictOf st (cmdPc w))
  else .ok (trainOf st (cmdPc w) (cmdOut w))

/-! ## Configuration words -/

/-- Field `STRATEGY`, bits 1:0 (R24, R82). -/
def cfgStrategy (c : CfgWord) : Strategy :=
  match c.getLsbD 1, c.getLsbD 0 with
  | false, false => .static
  | false, true => .gshare
  | true, false => .tournament
  | true, true => .perceptron

/-- Field `G`, bits 7:2 (R25, R82). -/
def cfgG (c : CfgWord) : Nat := (c.extractLsb' 2 6).toNat

/-- Field `L`, bits 13:8 (R25, R82). -/
def cfgL (c : CfgWord) : Nat := (c.extractLsb' 8 6).toNat

/-- Field `P`, bits 19:14 (R25, R82). -/
def cfgP (c : CfgWord) : Nat := (c.extractLsb' 14 6).toNat

/-- Field `PINIT`, bit 20: `false` is ZERO, `true` is SEEDED (R26, R82). -/
def cfgPinit (c : CfgWord) : Bool := c.getLsbD 20

/-- Legality of a configuration, for given largest widths (R25, R83: the other fields and bits 31:21
are ignored). -/
def cfgLegalFor (gMax lMax pMax : Nat) (c : CfgWord) : Bool :=
  match cfgStrategy c with
  | .static => true
  | .gshare => decide (1 ≤ cfgG c ∧ cfgG c ≤ gMax)
  | .tournament =>
      decide ((1 ≤ cfgG c ∧ cfgG c ≤ gMax) ∧ (1 ≤ cfgL c ∧ cfgL c ≤ lMax) ∧ (1 ≤ cfgP c ∧ cfgP c ≤ pMax))
  | .perceptron => true

/-- Legality of a configuration on this hardware, whose largest widths are build-time parameters
(R25). -/
def cfgLegal (c : CfgWord) : Bool := cfgLegalFor Config.gMax Config.lMax Config.pMax c

/-! ## Writing words -/

/-- A command word from its fields (R70). -/
def cmdWord (pc : Pc) (rsvd : BitVec 29) (out : Dir) (op : BitVec 2) : CmdWord :=
  pc ++ rsvd ++ BitVec.ofBool out ++ op

/-- The PREDICT encoding (R76). -/
def encodePredict (pc : Pc) : CmdWord := cmdWord pc 0#29 false 0b01#2

/-- The TRAIN encoding (R77). -/
def encodeTrain (pc : Pc) (o : Dir) : CmdWord := cmdWord pc 0#29 o 0b10#2

/-- The one word of a command (R76, R77, R79). -/
def encode : Instr → CmdWord
  | .staticPredict pc => encodePredict pc
  | .staticTrain pc o => encodeTrain pc o
  | .gsharePredict pc => encodePredict pc
  | .gshareTrain pc o => encodeTrain pc o
  | .tournPredict pc => encodePredict pc
  | .tournTrain pc o => encodeTrain pc o
  | .percPredict pc => encodePredict pc
  | .percTrain pc o => encodeTrain pc o

/-- The number of a strategy in `CFG.STRATEGY` (R24). -/
def strategyCode : Strategy → BitVec 2
  | .static => 0#2
  | .gshare => 1#2
  | .tournament => 2#2
  | .perceptron => 3#2

/-- A configuration word from its fields, with bits 31:21 zero (R82). -/
def encodeCfg (st : Strategy) (g l p : BitVec 6) (pinit : Bool) : CfgWord :=
  0#11 ++ BitVec.ofBool pinit ++ p ++ l ++ g ++ strategyCode st

/-! ## The host's questions about single words -/

/-- An instruction of the opcode table whose low `nbits` bits are `w`, as a command word. -/
def tableWord (nbits w : Nat) : CmdWord := BitVec.ofNat 64 (w % 2 ^ nbits)

/-- What the decoder reads from a table word. The word alone does not say the strategy (R75); this is
the engine as `State.reset` has it configured, so PREDICT and TRAIN words read as Static's
(log entry 12). -/
def decodeTableWord (nbits w : Nat) : Option Instr :=
  (decode (cfgStrategy Config.bootCfg) (tableWord nbits w)).toOption

end Sys2Proof
end

