-- ==== Sys2Proof/Machine/State.lean ====
section
/-! DEFINITION. The state of the machine (10_state), the reasons a step can stop, and the state after
reset. -/

namespace Sys2Proof.Machine

/-- A table of run-time size, held sparsely: (index, entry) pairs, indices strictly rising, no entry
equal to the one every index has at reset (`Table.wf`, log entry 8). -/
abbrev Table (α : Type) := List (Nat × α)

/-- State of a Gshare engine (R22). -/
structure GshareState where
  /-- `GHR`, `G` bits (R28) -/
  ghr : Hist
  /-- `PHT`, 2^`G` counters (R30) -/
  pht : Table Counter
deriving DecidableEq, Repr

/-- State of a Tournament engine (R22). -/
structure TournamentState where
  /-- `GHR`, `G` bits (R28) -/
  ghr : Hist
  /-- `PHT`, 2^`G` counters: the global predictor (R30) -/
  pht : Table Counter
  /-- `CT`, 2^`G` counters: the choice table (R31) -/
  ct : Table Counter
  /-- `LHT`, 2^`P` local histories of `L` bits (R32) -/
  lht : Table Hist
  /-- `LPT`, 2^`L` counters: the local predictor (R33) -/
  lpt : Table Counter
deriving DecidableEq, Repr

/-- State of a Perceptron engine (R22, R34, R190). -/
structure PerceptronState where
  /-- `GHR`, 12 bits (R28) -/
  ghr : PercHist
  /-- `PBIAS`, 512 biases (R34) -/
  pbias : Vector Weight 512
  /-- `PW`, 512 rows of 12 weights (R34) -/
  pw : Vector (Vector Weight 12) 512
deriving DecidableEq, Repr

/-- The strategy state: a sum with one variant per strategy (R22, D14). -/
inductive Strat where
  /-- no strategy state exists: `CFG_ERR` = 1 (R22, R212) -/
  | absent
  | static
  | gshare (g : GshareState)
  | tournament (t : TournamentState)
  | perceptron (p : PerceptronState)
deriving DecidableEq, Repr

/-- The whole machine: the engine's state (R20) and the host's side of its interface (R256). -/
structure State where
  /-- `CFG`, as latched at reset (R23) -/
  cfg : CfgWord
  /-- `STATUS.CFG_ERR` (R27) -/
  cfgErr : Bool
  /-- the state of the selected strategy (R22) -/
  strat : Strat
  /-- MODEL'S OWN (log entry 1): the host's moves not yet accepted, oldest first -/
  inputs : List HostInput
  /-- MODEL'S OWN (log entry 1): the responses of the current run, oldest first (R133, R255) -/
  responses : List RspWord
  /-- MODEL'S OWN (log entry 4): how many resets there have been; it numbers the draws of R45 -/
  resets : Nat
  /-- MODEL'S OWN (log entry 4): the source of this engine's draws in this run (R45, R225); no step changes
  it and only a seeded reset reads it -/
  source : Nat
deriving DecidableEq, Repr

/-- Why a step can stop with a fault. -/
inductive Fault where
  /-- A Perceptron command read a row that holds the bit pattern of -32. The spec asks for a fault if a
  model ever meets it (93, U14); no run does (R36). Raised by `execPercPredict` and `execPercTrain`.
  Safe: the machine stops where the spec gives no value. -/
  | weightMinus32
deriving DecidableEq, Repr

/-- Why a step can have no meaning. -/
inductive Refusal where
  /-- An instruction the model gives no meaning yet. Raised by `exec` alone. Safe. -/
  | notModelled (mnemonic : String)
  /-- A command of one strategy was handed to an engine that holds no state of that strategy, though
  `CFG_ERR` = 0. Decoding never does that (R75), no run reaches it, and the spec gives it no effect.
  Raised by `onSelected`, for every command. Safe (log entry 6). -/
  | otherStrategy
deriving DecidableEq, Repr

/-- The machine right after a reset with the configuration word `Config.bootCfg` (log entry 2) and with
no command offered yet. Static is always legal (R25, R46) and its strategy has no state (R22). -/
def State.reset : State where
  cfg := Config.bootCfg
  cfgErr := false
  strat := .static
  inputs := []
  responses := []
  resets := 1
  source := 0

end Sys2Proof.Machine
end

