-- ==== Sys2Proof/Machine/Flags.lean ====
section
/-! DEFINITION. The decisions of the datapath (40_primitives): the saturating counter's next state and
output, the Tournament's arbitration, the Perceptron's sign, clamp, decision and training condition. -/

namespace Sys2Proof.Machine

/-! ## The saturating counter (R100 to R103) -/

/-- Strongly-Not-Taken (R100). -/
abbrev ctrSN : Counter := 0#2

/-- Weakly-Not-Taken (R100). -/
abbrev ctrWN : Counter := 1#2

/-- Weakly-Taken (R100). -/
abbrev ctrWT : Counter := 2#2

/-- Strongly-Taken (R100). -/
abbrev ctrST : Counter := 3#2

/-- `SatUpdate(c, o)`: one step toward the outcome, saturating at 0 and 3 (R101). -/
def satUpdate (c : Counter) (o : Dir) : Counter :=
  if o then BitVec.ofNat 2 (min (c.toNat + 1) 3) else BitVec.ofNat 2 (c.toNat - 1)

/-- `CtrPred(c)`: Taken iff the counter is at least WT (R103). -/
def ctrPred (c : Counter) : Dir := decide (2 ≤ c.toNat)

/-! ## Tournament arbitration (R115, R116) -/

/-- `Arb(c, gp, lp)`: the global prediction if the choice counter says Taken, else the local (R115). -/
def arb (c : Counter) (gp lp : Dir) : Dir := if ctrPred c then gp else lp

/-- `ChoiceUpdate(c, gp, lp, o)`: it learns only from disagreement, toward the one that was right
(R116). -/
def choiceUpdate (c : Counter) (gp lp o : Dir) : Counter :=
  if gp = lp then c else if gp = o then satUpdate c true else satUpdate c false

/-! ## Perceptron arithmetic (R109 to R114) -/

/-- The largest magnitude of a bias or weight (R9). -/
def weightMax : Int := 31

/-- `THETA`, the training threshold (R9, R10). -/
def theta : Nat := 37

/-- `S(b)`, the sign map (R109). -/
def signMap (b : Bool) : Int := if b then 1 else -1

/-- `Clamp(v)` (R110). -/
def clamp (v : Int) : Int := max (-weightMax) (min weightMax v)

/-- A bias or weight moved by `d` and clamped, back in its 6-bit field (R34, R110, R114). -/
def stepWeight (w : Weight) (d : Int) : Weight := BitVec.ofInt 6 (clamp (w.toInt + d))

/-- `PercSum(r, h)`: the exact dot product of a row, its bias first, with a history (R111). -/
def percSum (bias : Weight) (ws : Vector Weight 12) (h : PercHist) : Int :=
  bias.toInt + ((List.finRange 12).map fun i : Fin 12 => ws[i].toInt * signMap (h.getLsbD i)).sum

/-- `PercPred(y)`: Taken iff the sum is not negative (R112). -/
def percPred (y : Int) : Dir := decide (0 ≤ y)

/-- `PercTrainEn(y, o)`: the prediction was wrong, or the sum is at most the threshold (R113). -/
def percTrainEn (y : Int) (o : Dir) : Bool := decide (percPred y ≠ o ∨ y.natAbs ≤ theta)

/-- `PBIAS'[r]` (R114): `t` is +1 for a Taken outcome, -1 else, which is the sign map. -/
def trainBias (b : Weight) (o : Dir) : Weight := stepWeight b (signMap o)

/-- `PW'[r][0..11]` (R114). -/
def trainWeights (ws : Vector Weight 12) (h : PercHist) (o : Dir) : Vector Weight 12 :=
  Vector.ofFn fun i => stepWeight ws[i] (signMap o * signMap (h.getLsbD i))

end Sys2Proof.Machine
end

