-- ==== Sys2Proof/Machine/Operands.lean ====
section
/-! DEFINITION. Histories and indices: the masking primitive (R12), the history shifter (R104) and the
index functions of the table multiplexer (R106 to R108). -/

namespace Sys2Proof.Machine

/-- `mask_w(v)`: the low `w` bits of `v`, in the same storage (R12). -/
def mask {n : Nat} (w : Nat) (v : BitVec n) : BitVec n := (v.setWidth w).setWidth n

/-- `ShiftIn(h, o, w)`: the outcome enters at bit 0, bit `w - 1` falls out (R104). -/
def shiftIn {n : Nat} (h : BitVec n) (o : Dir) (w : Nat) : BitVec n :=
  mask w ((h <<< 1) ||| (BitVec.ofBool o).setWidth n)

/-- `GsIdx(pc, GHR)`, the Gshare index, for history width `g` (R106). -/
def gsIdx (g : Nat) (pc : Pc) (ghr : Hist) : Nat := (mask g pc ^^^ ghr).toNat

/-- `lslot`, the Tournament's local history slot, for `p` index bits (R107). -/
def lslot (p : Nat) (pc : Pc) : Nat := (mask p pc).toNat

/-- `row`, the Perceptron's row: pc bits 8:0 (R108). -/
def percRow (pc : Pc) : Fin 512 := ⟨pc.toNat % 512, Nat.mod_lt _ (by decide)⟩

end Sys2Proof.Machine
end

