-- ==== Sys2Proof/Machine/Ops.lean ====
section
/-! DEFINITION. The named operations: table reads and writes, responses, the reset, the selection of
the strategy's state, and accepting the host's next move (41_dispatch, 60_exceptions, 70_reset).

The engine has no traps (R219): an error is a response and nothing else (R210), so `State.respond` is
the whole of taking an error, and there is no return from one (R220). -/

namespace Sys2Proof.Machine

/-! ## Tables -/

/-- `T[i]`: the listed entry, or the entry every index has at reset (R13, R41 to R44). -/
def tableRead {α : Type} (init : α) : Table α → Nat → α
  | [], _ => init
  | (k, v) :: rest, i => if k = i then v else tableRead init rest i

/-- The table without entry `i`. -/
def tableErase {α : Type} (t : Table α) (i : Nat) : Table α := t.filter fun e => e.1 != i

/-- The table with entry `i` listed at its place. -/
def tableInsert {α : Type} (i : Nat) (v : α) : Table α → Table α
  | [] => [(i, v)]
  | e :: rest => if i < e.1 then (i, v) :: e :: rest else e :: tableInsert i v rest

/-- `T[i] <- v`, keeping the canonical form (R13). -/
def tableWrite {α : Type} [DecidableEq α] (init : α) (t : Table α) (i : Nat) (v : α) : Table α :=
  if v = init then tableErase t i else tableInsert i v (tableErase t i)

/-- The canonical form of a table of `size` entries: indices strictly rising and in range, no entry
equal to the reset entry. -/
abbrev Table.wf {α : Type} [DecidableEq α] (init : α) (size : Nat) (t : Table α) : Prop :=
  t.Pairwise (fun a b => a.1 < b.1) ∧ ∀ e ∈ t, e.1 < size ∧ e.2 ≠ init

/-- `PHT[i]`; every entry is WN at reset (R30, R41). -/
def readPht (t : Table Counter) (i : Nat) : Counter := tableRead ctrWN t i

/-- `PHT[i] <- c` (R30). -/
def writePht (t : Table Counter) (i : Nat) (c : Counter) : Table Counter := tableWrite ctrWN t i c

/-- `CT[i]`; every entry is WT at reset (R31, R42). -/
def readCt (t : Table Counter) (i : Nat) : Counter := tableRead ctrWT t i

/-- `CT[i] <- c` (R31). -/
def writeCt (t : Table Counter) (i : Nat) (c : Counter) : Table Counter := tableWrite ctrWT t i c

/-- `LHT[i]`; every entry is 0 at reset (R32, R43). -/
def readLht (t : Table Hist) (i : Nat) : Hist := tableRead 0#32 t i

/-- `LHT[i] <- h` (R32). -/
def writeLht (t : Table Hist) (i : Nat) (h : Hist) : Table Hist := tableWrite 0#32 t i h

/-- `LPT[i]`; every entry is WN at reset (R33, R44). -/
def readLpt (t : Table Counter) (i : Nat) : Counter := tableRead ctrWN t i

/-- `LPT[i] <- c` (R33). -/
def writeLpt (t : Table Counter) (i : Nat) (c : Counter) : Table Counter := tableWrite ctrWN t i c

/-! ## Perceptron rows -/

/-- The bit pattern of -32, which no rule can store (R34, U14). -/
def weightIllegal (w : Weight) : Bool := decide (w = 0b100000#6)

/-- `PBIAS[r]` and `PW[r][0..11]` (R117); nothing if one of the 13 is the pattern of -32, on which the
spec asks for a fault (U14, log entry 5). -/
def readRow (p : PerceptronState) (r : Fin 512) : Option (Weight × Vector Weight 12) :=
  if weightIllegal p.pbias[r] || p.pw[r].toList.any weightIllegal then none
  else some (p.pbias[r], p.pw[r])

/-- The writes of all 13 values of one row (R54, R192). -/
def writeRow (p : PerceptronState) (r : Fin 512) (bias : Weight) (ws : Vector Weight 12) : PerceptronState :=
  { p with pbias := p.pbias.set r bias, pw := p.pw.set r ws }

/-! ## Responses (R81, R133, R210, R211) -/

/-- The 2-bit code of an error (R211). -/
def errCode : Err → BitVec 2
  | .ok => 0b00#2
  | .illegalOp => 0b01#2
  | .rsvdNonzero => 0b10#2
  | .cfgInvalid => 0b11#2

/-- The response word: `ERR` in bits 2:1, `PRED` in bit 0 (R81). -/
def rspWord (e : Err) (pred : Dir) : RspWord := errCode e ++ BitVec.ofBool pred

/-- `respond(err, pred)`: the command's one response leaves, after those before it; with an error it is
the command's whole effect (R133, R210). -/
def State.respond (s : State) (e : Err) (pred : Dir) : State :=
  { s with responses := s.responses ++ [rspWord e pred] }

/-- Write the strategy state. -/
def State.setStrat (s : State) (x : Strat) : State := { s with strat := x }

/-! ## Reset (R240) -/

/-- A value of the draw as a stored weight: -1, 0 or +1 (R45). -/
def seedWeight (x : Fin 3) : Weight := BitVec.ofInt 6 ((x.val : Int) - 1)

/-- The Perceptron's state at reset number `n` of the draw source `d` (R40, R45). That equal `d` and `n` give
equal seeded weights is the model's choice: the spec leaves every draw free (log entry 4). -/
def resetPerceptron (pinit : Bool) (d n : Nat) : PerceptronState :=
  if pinit then
    { ghr := 0#12
      pbias := Vector.ofFn fun r => seedWeight (Config.percSeed d n r.val 0)
      pw := Vector.ofFn fun r => Vector.ofFn fun i => seedWeight (Config.percSeed d n r.val (i.val + 1)) }
  else
    { ghr := 0#12, pbias := Vector.replicate 512 0#6, pw := Vector.replicate 512 (Vector.replicate 12 0#6) }

/-- The selected strategy's state at reset number `n` of the draw source `d`, none if the configuration is illegal (R22, R40
to R46). The empty tables are the tables whose every entry is its reset value. -/
def resetStrat (c : CfgWord) (d n : Nat) : Strat :=
  if cfgLegal c then
    match cfgStrategy c with
    | .static => .static
    | .gshare => .gshare { ghr := 0#32, pht := [] }
    | .tournament => .tournament { ghr := 0#32, pht := [], ct := [], lht := [], lpt := [] }
    | .perceptron => .perceptron (resetPerceptron (cfgPinit c) d n)
  else .absent

/-- The machine when reset number `n` with configuration word `c` is released, its draws from source `d`, the
moves `rest` still to come: everything held before is gone, and a new run begins (R240, R241, R255). -/
def resetWith (c : CfgWord) (d n : Nat) (rest : List HostInput) : State where
  cfg := c
  cfgErr := !cfgLegal c
  strat := resetStrat c d n
  inputs := rest
  responses := []
  resets := n + 1
  source := d

/-! ## The selected strategy's state -/

/-- The (empty) Static state, if that is the variant held. -/
def Strat.static? : Strat → Option Unit
  | .absent => none
  | .static => some ()
  | .gshare _ => none
  | .tournament _ => none
  | .perceptron _ => none

/-- The Gshare state, if that is the variant held. -/
def Strat.gshare? : Strat → Option GshareState
  | .absent => none
  | .static => none
  | .gshare g => some g
  | .tournament _ => none
  | .perceptron _ => none

/-- The Tournament state, if that is the variant held. -/
def Strat.tournament? : Strat → Option TournamentState
  | .absent => none
  | .static => none
  | .gshare _ => none
  | .tournament t => some t
  | .perceptron _ => none

/-- The Perceptron state, if that is the variant held. -/
def Strat.perceptron? : Strat → Option PerceptronState
  | .absent => none
  | .static => none
  | .gshare _ => none
  | .tournament _ => none
  | .perceptron p => some p

/-- What every command does first: with `CFG_ERR` = 1 it answers CFG_INVALID (R212); else it works on
the state of its own strategy. A command of another strategy has no effect the spec gives, and
decoding makes none (R75): it is refused (log entry 6). -/
def onSelected {α : Type} (s : State) (pick : Strat → Option α)
    (k : α → Host.Outcome State Fault Refusal) : Host.Outcome State Fault Refusal :=
  if s.cfgErr then .next (s.respond .cfgInvalid false)
  else
    match pick s.strat with
    | some x => k x
    | none => .refused .otherStrategy

/-! ## Accepting the host's next move -/

/-- What accepting a move leads to: the machine has settled without running a command, or a decoded
command is to run. -/
inductive Accepted where
  | settled (t : State)
  | run (i : Instr) (t : State)
deriving DecidableEq, Repr

/-- The checks on a command word, in their order, before the command runs (R132, R215). -/
def acceptCommand (w : CmdWord) (s : State) : Accepted :=
  if s.cfgErr then .settled (s.respond .cfgInvalid false)
  else
    match decode (cfgStrategy s.cfg) w with
    | .error e => .settled (s.respond e false)
    | .ok i => .run i s

/-- The host's next move: with none, the engine is idle and holds its state (R227); a reset has its
full effect, whatever state the engine was in (R241), and its `lost` commands none (R242); a command
is checked and, if it passes, runs. -/
def accept (s : State) : Accepted :=
  match s.inputs with
  | [] => .settled s
  | .reset c _ :: rest => .settled (resetWith c s.source s.resets rest)
  | .command w :: rest => acceptCommand w { s with inputs := rest }

/-- Offer a command word as the host's next move. -/
def State.offer (s : State) (w : CmdWord) : State := { s with inputs := .command w :: s.inputs }

/-- The level of the status output (R27, R256). -/
def State.statusOut (s : State) : Bool := s.cfgErr

end Sys2Proof.Machine
end

