-- ==== Sys2Proof/Machine/Gshare.lean ====
section
/-! DEFINITION. The Gshare strategy's commands (43_gshare). -/

namespace Sys2Proof.Machine

/-- The prediction of a Gshare engine with history width `w` (R160). -/
def gsharePred (w : Nat) (g : GshareState) (pc : Pc) : Dir :=
  ctrPred (readPht g.pht (gsIdx w pc g.ghr))

/-- The state after training: the counter selected by the history before the command moves, then the
outcome enters the history (R161, R162). -/
def gshareTrained (w : Nat) (g : GshareState) (pc : Pc) (o : Dir) : GshareState :=
  let idx := gsIdx w pc g.ghr
  { pht := writePht g.pht idx (satUpdate (readPht g.pht idx) o)
    ghr := shiftIn g.ghr o w }

/-- GSHARE.PREDICT (R160). -/
def execGsharePredict (pc : Pc) (s : State) : Host.Outcome State Fault Refusal :=
  onSelected s Strat.gshare? fun g => .next (s.respond .ok (gsharePred (cfgG s.cfg) g pc))

/-- GSHARE.TRAIN (R161). -/
def execGshareTrain (pc : Pc) (o : Dir) (s : State) : Host.Outcome State Fault Refusal :=
  onSelected s Strat.gshare? fun g =>
    .next ((s.setStrat (.gshare (gshareTrained (cfgG s.cfg) g pc o))).respond .ok false)

end Sys2Proof.Machine
end

