-- ==== Sys2Proof/Machine/Perceptron.lean ====
section
/-! DEFINITION. The Perceptron strategy's commands (45_perceptron). -/

namespace Sys2Proof.Machine

/-- The state after training on a row read as `bias` and `ws`: the row moves if the training condition
holds on the sum, and the outcome enters the history always (R192). -/
def percTrained (p : PerceptronState) (r : Fin 512) (bias : Weight) (ws : Vector Weight 12) (o : Dir) :
    PerceptronState :=
  let q :=
    if percTrainEn (percSum bias ws p.ghr) o then
      writeRow p r (trainBias bias o) (trainWeights ws p.ghr o)
    else p
  { q with ghr := shiftIn p.ghr o 12 }

/-- PERC.PREDICT (R191). -/
def execPercPredict (pc : Pc) (s : State) : Host.Outcome State Fault Refusal :=
  onSelected s Strat.perceptron? fun p =>
    match readRow p (percRow pc) with
    | none => .fault .weightMinus32
    | some (bias, ws) => .next (s.respond .ok (percPred (percSum bias ws p.ghr)))

/-- PERC.TRAIN (R192). -/
def execPercTrain (pc : Pc) (o : Dir) (s : State) : Host.Outcome State Fault Refusal :=
  onSelected s Strat.perceptron? fun p =>
    match readRow p (percRow pc) with
    | none => .fault .weightMinus32
    | some (bias, ws) =>
      .next ((s.setStrat (.perceptron (percTrained p (percRow pc) bias ws o))).respond .ok false)

end Sys2Proof.Machine
end

