-- ==== Sys2Proof/Machine/Static.lean ====
section
/-! DEFINITION. The Static strategy's commands (42_static). -/

namespace Sys2Proof.Machine

/-- STATIC.PREDICT: Taken for every pc (R150). -/
def execStaticPredict (_pc : Pc) (s : State) : Host.Outcome State Fault Refusal :=
  onSelected s Strat.static? fun _ => .next (s.respond .ok true)

/-- STATIC.TRAIN: it changes nothing (R151). -/
def execStaticTrain (_pc : Pc) (_o : Dir) (s : State) : Host.Outcome State Fault Refusal :=
  onSelected s Strat.static? fun _ => .next (s.respond .ok false)

end Sys2Proof.Machine
end

