-- ==== Sys2Proof/Machine/Tournament.lean ====
section
/-! DEFINITION. The Tournament strategy's commands (44_tournament). -/

namespace Sys2Proof.Machine

/-- The values both commands read before anything is written (R117, R171). -/
structure TournReads where
  /-- the global index -/
  gidx : Nat
  /-- the local history slot -/
  slot : Nat
  /-- the local history -/
  lhist : Hist
  /-- the global counter `PHT[gidx]` -/
  gc : Counter
  /-- the local counter `LPT[lhist]` -/
  lc : Counter
  /-- the choice counter `CT[gidx]` -/
  ch : Counter
deriving DecidableEq, Repr

/-- `TournRead(pc)`, for `p` index bits (R107, R171). -/
def tournRead (p : Nat) (t : TournamentState) (pc : Pc) : TournReads :=
  let gidx := t.ghr.toNat
  let slot := lslot p pc
  let lhist := readLht t.lht slot
  { gidx := gidx
    slot := slot
    lhist := lhist
    gc := readPht t.pht gidx
    lc := readLpt t.lpt lhist.toNat
    ch := readCt t.ct gidx }

/-- The prediction of a Tournament engine with `p` index bits (R115, R173). -/
def tournPred (p : Nat) (t : TournamentState) (pc : Pc) : Dir :=
  let r := tournRead p t pc
  arb r.ch (ctrPred r.gc) (ctrPred r.lc)

/-- The state after training, every right-hand side from the values read first (R175), for widths `g`,
`l` and `p`. -/
def tournTrained (g l p : Nat) (t : TournamentState) (pc : Pc) (o : Dir) : TournamentState :=
  let r := tournRead p t pc
  { pht := writePht t.pht r.gidx (satUpdate r.gc o)
    lpt := writeLpt t.lpt r.lhist.toNat (satUpdate r.lc o)
    ct := writeCt t.ct r.gidx (choiceUpdate r.ch (ctrPred r.gc) (ctrPred r.lc) o)
    lht := writeLht t.lht r.slot (shiftIn r.lhist o l)
    ghr := shiftIn t.ghr o g }

/-- TOURN.PREDICT (R173). -/
def execTournPredict (pc : Pc) (s : State) : Host.Outcome State Fault Refusal :=
  onSelected s Strat.tournament? fun t => .next (s.respond .ok (tournPred (cfgP s.cfg) t pc))

/-- TOURN.TRAIN (R175). -/
def execTournTrain (pc : Pc) (o : Dir) (s : State) : Host.Outcome State Fault Refusal :=
  onSelected s Strat.tournament? fun t =>
    .next ((s.setStrat (.tournament (tournTrained (cfgG s.cfg) (cfgL s.cfg) (cfgP s.cfg) t pc o))).respond
      .ok false)

end Sys2Proof.Machine
end

