-- ==== Sys2Proof/Machine/Dispatch.lean ====
section
/-! DEFINITION. Dispatch: one arm per command (R134). -/

namespace Sys2Proof.Machine

def exec (i : Instr) (s : State) : Host.Outcome State Fault Refusal :=
  match i with
  | .staticPredict pc => Sys2Proof.Machine.execStaticPredict pc s
  | .staticTrain pc o => Sys2Proof.Machine.execStaticTrain pc o s
  | .gsharePredict pc => Sys2Proof.Machine.execGsharePredict pc s
  | .gshareTrain pc o => Sys2Proof.Machine.execGshareTrain pc o s
  | .tournPredict pc => Sys2Proof.Machine.execTournPredict pc s
  | .tournTrain pc o => Sys2Proof.Machine.execTournTrain pc o s
  | .percPredict pc => Sys2Proof.Machine.execPercPredict pc s
  | .percTrain pc o => Sys2Proof.Machine.execPercTrain pc o s

end Sys2Proof.Machine
end

