-- ==== Sys2Proof/Machine/Step.lean ====
section
/-! DEFINITION. The step (R130, R131): accept the host's next move and run the command it decodes to. -/

namespace Sys2Proof.Machine

/-- One step of the machine. -/
def step (s : State) : Host.Outcome State Fault Refusal :=
  match accept s with
  | .settled t => .next t
  | .run i t => exec i t

/-- `s` with an instruction of the opcode table offered as the host's next move, so that the next step
runs it (log entry 12). -/
def State.withFetchWord (s : State) (nbits w : Nat) : State := s.offer (tableWord nbits w)

end Sys2Proof.Machine
end

