-- ==== Sys2Proof/Machine/Assembler.lean ====
section
/-! DEFINITION. The assembler notation (R85, R86): lines of text to the host's moves they stand for.
Text is a list of characters. The details the spec's grammar leaves open are log entry 15. -/

namespace Sys2Proof.Machine

/-- One line of assembly (R85, R86). -/
inductive AsmLine where
  /-- `.config`: the configuration word a reset latches; each such line is a reset move (log entry 15) -/
  | config (strategy : Strategy) (g l p : BitVec 6) (pinit : Bool)
  | predict (pc : Pc)
  | train (pc : Pc) (outcome : Dir)
  /-- `.word64`: a raw command word -/
  | word64 (w : CmdWord)
  /-- the pseudo-instruction (R86) -/
  | branch (pc : Pc) (outcome : Dir)
deriving DecidableEq, Repr

/-- What a line makes the host do (R85, R86). -/
def assembleLine : AsmLine → List HostInput
  | .config st g l p pinit => [.reset (encodeCfg st g l p pinit) []]
  | .predict pc => [.command (encodePredict pc)]
  | .train pc o => [.command (encodeTrain pc o)]
  | .word64 w => [.command w]
  | .branch pc o => [.command (encodePredict pc), .command (encodeTrain pc o)]

/-! ## Reading text -/

/-- The characters that separate words. -/
def asmBlank (c : Char) : Bool := c == ' ' || c == '\t' || c == '\r'

/-- A word that is finished, unless it is empty. -/
def asmFlush (word : List Char) : List (List Char) := if word.isEmpty then [] else [word]

/-- The words of a line up to its comment; a comma is a word of its own. `word` is the word being
read. -/
def asmWords (word : List Char) : List Char → List (List Char)
  | [] => asmFlush word
  | c :: rest =>
    if c == ';' then asmFlush word
    else if c == ',' then asmFlush word ++ [','] :: asmWords [] rest
    else if asmBlank c then asmFlush word ++ asmWords [] rest
    else asmWords (word ++ [c]) rest

/-- The value of a digit, if it is one of the base. -/
def asmDigit (base : Nat) (c : Char) : Option Nat :=
  let v :=
    if '0' ≤ c ∧ c ≤ '9' then c.toNat - '0'.toNat
    else if 'a' ≤ c ∧ c ≤ 'f' then c.toNat - 'a'.toNat + 10
    else if 'A' ≤ c ∧ c ≤ 'F' then c.toNat - 'A'.toNat + 10
    else base
  if v < base then some v else none

/-- The number a list of digits stands for, after `acc`. -/
def asmDigits (base : Nat) (acc : Nat) : List Char → Option Nat
  | [] => some acc
  | c :: rest => (asmDigit base c).bind fun v => asmDigits base (acc * base + v) rest

/-- A number, decimal or `0x` hexadecimal, below `bound` (R85). -/
def asmNumber (bound : Nat) (t : List Char) : Option Nat :=
  let n :=
    match t with
    | [] => none
    | ['0', 'x'] => none
    | '0' :: 'x' :: ds => asmDigits 16 0 ds
    | ds => asmDigits 10 0 ds
  n.bind fun v => if v < bound then some v else none

/-- `T` or `N` (R85). -/
def asmOutcome (t : List Char) : Option Dir :=
  if t = ['T'] then some true else if t = ['N'] then some false else none

/-- A `pc` operand, in 0..2^32 - 1 (R85). -/
def asmPc (t : List Char) : Option Pc := (asmNumber (2 ^ 32) t).map (BitVec.ofNat 32)

/-- A width field of `.config`; it has six bits (R25). -/
def asmField (t : List Char) : Option (BitVec 6) := (asmNumber 64 t).map (BitVec.ofNat 6)

/-- What follows the first word in the second. -/
def asmAfter : List Char → List Char → Option (List Char)
  | [], t => some t
  | _ :: _, [] => none
  | p :: ps, c :: cs => if p == c then asmAfter ps cs else none

/-- The strategy names of `.config` (R85). -/
def asmStrategy (t : List Char) : Option Strategy :=
  if t = "STATIC".toList then some .static
  else if t = "GSHARE".toList then some .gshare
  else if t = "TOURNAMENT".toList then some .tournament
  else if t = "PERCEPTRON".toList then some .perceptron
  else none

/-- `PINIT`'s names in `.config` (R85). -/
def asmPinit (t : List Char) : Option Bool :=
  if t = "ZERO".toList then some false else if t = "SEEDED".toList then some true else none

/-- The optional fields of `.config`; one that is omitted keeps the value given here (R85). -/
def asmFields (st : Strategy) (g l p : BitVec 6) (pinit : Bool) : List (List Char) → Option AsmLine
  | [] => some (.config st g l p pinit)
  | t :: rest =>
    match asmAfter "G=".toList t, asmAfter "L=".toList t, asmAfter "P=".toList t,
        asmAfter "pinit=".toList t with
    | some v, _, _, _ => (asmField v).bind fun x => asmFields st x l p pinit rest
    | none, some v, _, _ => (asmField v).bind fun x => asmFields st g x p pinit rest
    | none, none, some v, _ => (asmField v).bind fun x => asmFields st g l x pinit rest
    | none, none, none, some v => (asmPinit v).bind fun x => asmFields st g l p x rest
    | none, none, none, none => none

/-- A line's words as a line; no word at all is no line (R85, R86). -/
def asmParse : List (List Char) → Option (List AsmLine)
  | [] => some []
  | [op, t] =>
    if op = "PREDICT".toList then (asmPc t).map fun pc => [.predict pc]
    else if op = ".word64".toList then
      (asmNumber (2 ^ 64) t).map fun w => [.word64 (BitVec.ofNat 64 w)]
    else if op = ".config".toList then
      ((asmAfter "strategy=".toList t).bind asmStrategy).map fun st => [.config st 0 0 0 false]
    else none
  | op :: t :: rest =>
    if op = ".config".toList then
      ((asmAfter "strategy=".toList t).bind asmStrategy).bind fun st =>
        (asmFields st 0 0 0 false rest).map fun l => [l]
    else
      match rest with
      | [[','], o] =>
        (asmPc t).bind fun pc => (asmOutcome o).bind fun out =>
          if op = "TRAIN".toList then some [.train pc out]
          else if op = "BRANCH".toList then some [.branch pc out]
          else none
      | _ => none
  | _ => none

/-- The lines of a text. `line` is the line being read. -/
def asmLines (line : List Char) : List Char → List (List Char)
  | [] => [line]
  | c :: rest => if c == '\n' then line :: asmLines [] rest else asmLines (line ++ [c]) rest

/-- A text as the host's moves, if every line of it is legal (R85). That a text may have no `.config` line, or
several, at any place, each a reset move where it stands, is the model's choice (log entry 15). -/
def assembleText (text : List Char) : Option (List HostInput) :=
  ((asmLines [] text).mapM fun l => asmParse (asmWords [] l)).map fun ls => (ls.flatten.map assembleLine).flatten

end Sys2Proof.Machine
end

