-- ==== Sys2Proof/Machine/Instances.lean ====
section
/-! DEFINITION. Several engines side by side: each has its own state and its own step, and they share
nothing (R8, R64, R225). Each has its own source of draws too, so no seeded weight of one is tied to one of
another (R244, log entries 4 and 14). -/

namespace Sys2Proof.Machine

/-- Engines started together, one for each configuration word of `cs`, each at its own reset. Engine number
`k` draws from source `k`: that a number stands for the source is the model's choice (log entry 14). -/
def startEngines (cs : List CfgWord) : List State := cs.mapIdx fun k c => resetWith c k 0 []

/-- No two engines of `es` draw from one source: the lists of engines that stand for instances of R225. -/
def OwnSources (es : List State) : Prop := (es.map State.source).Nodup

/-- Engine number `k` of `es` takes one step; there being no such engine, nothing happens. -/
def stepAt (es : List State) (k : Nat) : Host.Outcome (List State) Fault Refusal :=
  match es[k]? with
  | none => .next es
  | some s =>
    match step s with
    | .next t => .next (es.set k t)
    | .fault r => .fault r
    | .refused r => .refused r

end Sys2Proof.Machine
end

