-- ==== Sys2Proof/Safety.lean ====
section
/-! DEFINITION. What holds in every state of a run, and what a run shows the host. -/

namespace Sys2Proof.Machine

/-- The strategy a state variant belongs to. -/
def Strat.kind : Strat → Option Strategy
  | .absent => none
  | .static => some .static
  | .gshare _ => some .gshare
  | .tournament _ => some .tournament
  | .perceptron _ => some .perceptron

/-- Exactly the selected strategy's state exists, and none when `CFG_ERR` = 1 (R22). -/
def State.SelectedOnly (s : State) : Prop :=
  s.strat.kind = if s.cfgErr then none else some (cfgStrategy s.cfg)

/-- `CFG_ERR` says whether the latched configuration is illegal (R27, R46). -/
def State.ErrHonest (s : State) : Prop := s.cfgErr = !cfgLegal s.cfg

/-- No bias and no weight holds the pattern of -32 (R34, R36). -/
def PerceptronState.InRange (p : PerceptronState) : Prop :=
  ∀ r : Fin 512, weightIllegal p.pbias[r] = false ∧ ∀ i : Fin 12, weightIllegal p.pw[r][i] = false

/-- Histories fit their widths (R28, R32) and tables hold entries only at indices they have (R51), in
the canonical form. -/
def Strat.InRange (g l p : Nat) : Strat → Prop
  | .absent => True
  | .static => True
  | .gshare x => x.ghr.toNat < 2 ^ g ∧ Table.wf ctrWN (2 ^ g) x.pht
  | .tournament x =>
    x.ghr.toNat < 2 ^ g ∧ Table.wf ctrWN (2 ^ g) x.pht ∧ Table.wf ctrWT (2 ^ g) x.ct ∧
      Table.wf 0#32 (2 ^ p) x.lht ∧ (∀ e ∈ x.lht, e.2.toNat < 2 ^ l) ∧ Table.wf ctrWN (2 ^ l) x.lpt
  | .perceptron x => x.InRange

/-- The invariant of the machine. -/
structure State.Inv (s : State) : Prop where
  honest : s.ErrHonest
  selected : s.SelectedOnly
  inRange : s.strat.InRange (cfgG s.cfg) (cfgL s.cfg) (cfgP s.cfg)

/-- What a run shows the host: the responses since the reset and the status output (R48, R255). -/
def State.observation (s : State) : List RspWord × Bool := (s.responses, s.statusOut)

end Sys2Proof.Machine
end

