-- ==== Sys2Proof/Certificates/Slice0/Obligations.lean ====
section
/-! DEFINITION. The statements for the provers. Each docstring says which rules of the spec it states. -/

open Sys2Proof Sys2Proof.Machine

/-- The dot product of R111, written out: the bias and the twelve weights of row `r`, each weight with
the sign of its history bit (R109). -/
def Sys2Proof.rowSum (p : PerceptronState) (r : Fin 512) (h : PercHist) : Int :=
  p.pbias[r].toInt + ∑ i : Fin 12, p.pw[r][i].toInt * (if h.getLsbD i then 1 else -1)

/-- Row `r` holds no pattern of -32 (R34): the rows both Perceptron commands can read. -/
def Sys2Proof.RowReadable (p : PerceptronState) (r : Fin 512) : Prop :=
  p.pbias[r].toInt ≠ -32 ∧ ∀ i : Fin 12, p.pw[r][i].toInt ≠ -32

/-- One step of a counter, as R101 has it: up to 3 for Taken, down to 0 for NotTaken. -/
def Sys2Proof.counterMoved (c : Counter) (o : Dir) : Nat := if o then min (c.toNat + 1) 3 else c.toNat - 1

/-- A legal command word: a PREDICT (R76) or a TRAIN (R77), by mask and match. -/
def Sys2Proof.LegalWord (w : CmdWord) : Prop :=
  w &&& 0x00000000FFFFFFFF#64 = 0x0000000000000001#64 ∨ w &&& 0x00000000FFFFFFFB#64 = 0x0000000000000002#64

/-- `w` is the word of command `i`, and an engine of strategy `st` reads it as `i`. -/
def Sys2Proof.EncodedAs (st : Strategy) (i : Instr) (w : CmdWord) : Prop := encode i = w ∧ decode st w = .ok i

/-! ## Encoding -/

/-- The worked encodings of R87: each line assembles to its word, and the last four words are rejected
as the table says, by an engine of every strategy. -/
def Obligations.WorkedEncodings : Prop :=
  assembleText "PREDICT 0x4".toList = some [.command 0x0000000400000001#64] ∧
  assembleText "TRAIN 0x4, T".toList = some [.command 0x0000000400000006#64] ∧
  assembleText "TRAIN 0x8, N".toList = some [.command 0x0000000800000002#64] ∧
  assembleText "PREDICT 0xFFFFFFFF".toList = some [.command 0xFFFFFFFF00000001#64] ∧
  assembleText ".word64 0x0000000400000000".toList = some [.command 0x0000000400000000#64] ∧
  assembleText ".word64 0x0000000400000003".toList = some [.command 0x0000000400000003#64] ∧
  assembleText ".word64 0x0000000400000005".toList = some [.command 0x0000000400000005#64] ∧
  assembleText ".word64 0x000000040000000A".toList = some [.command 0x000000040000000A#64] ∧
  ∀ st : Strategy,
    decode st 0x0000000400000000#64 = .error .illegalOp ∧ decode st 0x0000000400000003#64 = .error .illegalOp ∧
    decode st 0x0000000400000005#64 = .error .rsvdNonzero ∧ decode st 0x000000040000000A#64 = .error .rsvdNonzero

/-- Words written out from R70, R76 and R77 decode, for each strategy, to the command of R75 with their
operands (R72, R74). -/
def Obligations.WrittenWordsDecode : Prop :=
  decode .static 0x0000000400000001#64 = .ok (.staticPredict 0x4#32) ∧
  decode .static 0x0000000400000002#64 = .ok (.staticTrain 0x4#32 false) ∧
  decode .gshare 0x0000000800000001#64 = .ok (.gsharePredict 0x8#32) ∧
  decode .gshare 0x0000000400000006#64 = .ok (.gshareTrain 0x4#32 true) ∧
  decode .tournament 0xFFFFFFFF00000001#64 = .ok (.tournPredict 0xFFFFFFFF#32) ∧
  decode .tournament 0x0000000100000002#64 = .ok (.tournTrain 0x1#32 false) ∧
  decode .perceptron 0x0000020500000001#64 = .ok (.percPredict 0x205#32) ∧
  decode .perceptron 0x8000000000000006#64 = .ok (.percTrain 0x80000000#32 true)

/-- Decoding the word of a command by an engine of its strategy gives the command back, for every
command with every operand (R75, R76, R77). -/
def Obligations.DecodeOfEncode : Prop :=
  ∀ (st : Strategy) (i : Instr), i.wf st = true → decode st (encode i) = .ok i

/-- A word that decodes is the one word of the command it decodes to, a command of the engine's own
strategy (R75, R79: exactly one encoding per command). -/
def Obligations.EncodeOfDecode : Prop :=
  ∀ (st : Strategy) (w : CmdWord) (i : Instr), decode st w = .ok i → encode i = w ∧ i.wf st = true

/-- R80: every word is exactly one of a legal PREDICT (R76), a legal TRAIN (R77), an illegal word (R78)
and a reserved-bit word (R79), and decodes accordingly, its operands from bits 63:32 and bit 2. -/
def Obligations.EveryWordIsOneOfFour : Prop :=
  ∀ (st : Strategy) (w : CmdWord),
    let predict := w &&& 0x00000000FFFFFFFF#64 = 0x0000000000000001#64
    let train := w &&& 0x00000000FFFFFFFB#64 = 0x0000000000000002#64
    let op := w.toNat % 4
    let out := w.toNat / 4 % 2
    let rsvd := w.toNat / 8 % 2 ^ 29
    let illegal := op = 0 ∨ op = 3
    let reserved := ((op = 1 ∨ op = 2) ∧ rsvd ≠ 0) ∨ (op = 1 ∧ out = 1)
    (predict → decode st w = .ok (predictOf st (BitVec.ofNat 32 (w.toNat / 2 ^ 32)))) ∧
    (train → decode st w = .ok (trainOf st (BitVec.ofNat 32 (w.toNat / 2 ^ 32)) (decide (out = 1)))) ∧
    (illegal → decode st w = .error .illegalOp) ∧
    (reserved → decode st w = .error .rsvdNonzero) ∧
    (predict ∨ train ∨ illegal ∨ reserved) ∧
    ¬(predict ∧ train) ∧ ¬(predict ∧ illegal) ∧ ¬(predict ∧ reserved) ∧ ¬(train ∧ illegal) ∧
    ¬(train ∧ reserved) ∧ ¬(illegal ∧ reserved)

/-- R24 and the fields of R82: what each field of a configuration word is, and the five worked words. -/
def Obligations.ConfigurationFields : Prop :=
  (∀ c : CfgWord,
    (cfgStrategy c = .static ↔ c.toNat % 4 = 0) ∧ (cfgStrategy c = .gshare ↔ c.toNat % 4 = 1) ∧
    (cfgStrategy c = .tournament ↔ c.toNat % 4 = 2) ∧ (cfgStrategy c = .perceptron ↔ c.toNat % 4 = 3) ∧
    cfgG c = c.toNat / 2 ^ 2 % 64 ∧ cfgL c = c.toNat / 2 ^ 8 % 64 ∧ cfgP c = c.toNat / 2 ^ 14 % 64 ∧
    (cfgPinit c = true ↔ c.toNat / 2 ^ 20 % 2 = 1)) ∧
  encodeCfg .static 0 0 0 false = 0x00000000#32 ∧ encodeCfg .gshare 2 0 0 false = 0x00000009#32 ∧
  encodeCfg .tournament 2 2 1 false = 0x0000420A#32 ∧ encodeCfg .perceptron 0 0 0 false = 0x00000003#32 ∧
  encodeCfg .perceptron 0 0 0 true = 0x00100003#32

/-- R25: which configurations are legal, the largest widths being build-time parameters in 1..32
(R9, log entry 3). -/
def Obligations.ConfigurationLegality : Prop :=
  (1 ≤ Config.gMax ∧ Config.gMax ≤ 32) ∧ (1 ≤ Config.lMax ∧ Config.lMax ≤ 32) ∧
  (1 ≤ Config.pMax ∧ Config.pMax ≤ 32) ∧
  ∀ c : CfgWord,
    (cfgStrategy c = .static → cfgLegal c = true) ∧
    (cfgStrategy c = .gshare → (cfgLegal c = true ↔ 1 ≤ cfgG c ∧ cfgG c ≤ Config.gMax)) ∧
    (cfgStrategy c = .tournament →
      (cfgLegal c = true ↔ 1 ≤ cfgG c ∧ cfgG c ≤ Config.gMax ∧ 1 ≤ cfgL c ∧ cfgL c ≤ Config.lMax ∧
        1 ≤ cfgP c ∧ cfgP c ≤ Config.pMax)) ∧
    (cfgStrategy c = .perceptron → cfgLegal c = true)

/-- The pseudo-instruction of R86: `BRANCH` is `PREDICT` and then `TRAIN` of the same pc, two commands,
for every pc and outcome; and the text of R86 reads so (blanks and comments as log entry 15 has them). -/
def Obligations.BranchIsPredictThenTrain : Prop :=
  (∀ (pc : Pc) (o : Dir),
    assembleLine (.branch pc o) = assembleLine (.predict pc) ++ assembleLine (.train pc o) ∧
    (assembleLine (.branch pc o)).length = 2) ∧
  assembleText "BRANCH 0x4, T".toList = assembleText "PREDICT 0x4\nTRAIN 0x4, T".toList ∧
  assembleText "BRANCH 8, N ; a comment".toList = assembleText "PREDICT 8\nTRAIN 8, N".toList

/-! ## Reset -/

/-- R40 to R46: what a reset with configuration word `c` leaves, whatever the state before. R45 says of a
seeded value only that it is a draw in {-1, 0, +1}. That it is the draw `Config.percSeed` numbers by the
engine's source and its reset count, and how a reset moves that count, is the model's choice (log entry
4); the statement holds for every source, every count and every value of the draw. -/
def Obligations.ResetInitialisesSelectedStrategy : Prop :=
  ∀ (s : State) (c : CfgWord) (lost : List CmdWord) (rest : List HostInput),
    s.inputs = .reset c lost :: rest →
    ∃ t, step s = .next t ∧ t.cfg = c ∧ (t.cfgErr = true ↔ cfgLegal c = false) ∧ t.inputs = rest ∧
      t.source = s.source ∧ t.resets = s.resets + 1 ∧
      (cfgLegal c = false → t.strat = .absent) ∧
      (cfgLegal c = true → cfgStrategy c = .static → t.strat = .static) ∧
      (cfgLegal c = true → cfgStrategy c = .gshare →
        ∃ g, t.strat = .gshare g ∧ g.ghr = 0#32 ∧ ∀ i, (readPht g.pht i).toNat = 1) ∧
      (cfgLegal c = true → cfgStrategy c = .tournament →
        ∃ x, t.strat = .tournament x ∧ x.ghr = 0#32 ∧ (∀ i, (readPht x.pht i).toNat = 1) ∧
          (∀ i, (readCt x.ct i).toNat = 2) ∧ (∀ i, readLht x.lht i = 0#32) ∧
          ∀ i, (readLpt x.lpt i).toNat = 1) ∧
      (cfgLegal c = true → cfgStrategy c = .perceptron →
        ∃ p, t.strat = .perceptron p ∧ p.ghr = 0#12 ∧
          (cfgPinit c = false → ∀ r : Fin 512, p.pbias[r].toInt = 0 ∧ ∀ i : Fin 12, p.pw[r][i].toInt = 0) ∧
          (cfgPinit c = true → ∀ r : Fin 512,
            p.pbias[r].toInt = ((Config.percSeed s.source s.resets r 0).val : Int) - 1 ∧
            p.pbias[r].toInt ∈ [-1, 0, 1] ∧
            ∀ i : Fin 12, p.pw[r][i].toInt = ((Config.percSeed s.source s.resets r (i.val + 1)).val : Int) - 1 ∧
              p.pw[r][i].toInt ∈ [-1, 0, 1]))

/-- R241, R242, R244: unless the weights are seeded, what a reset leaves depends on its configuration
word alone, on nothing the engine held before, and on none of the commands it swallows, which get no
response. That the run's responses start empty is the model's choice (log entry 11). -/
def Obligations.ResetForgetsEverything : Prop :=
  ∀ (s₁ s₂ t₁ t₂ : State) (c : CfgWord) (l₁ l₂ : List CmdWord) (r₁ r₂ : List HostInput),
    s₁.inputs = .reset c l₁ :: r₁ → s₂.inputs = .reset c l₂ :: r₂ →
    (cfgStrategy c = .perceptron → cfgPinit c = false) →
    step s₁ = .next t₁ → step s₂ = .next t₂ →
    t₁.cfg = t₂.cfg ∧ t₁.cfgErr = t₂.cfgErr ∧ t₁.strat = t₂.strat ∧ t₁.responses = [] ∧ t₂.responses = []

/-- The invariant holds in `State.reset`, whose configuration word is the model's choice (log entry 2). -/
def Obligations.ResetStateSatisfiesInvariant : Prop := State.reset.Inv

/-- The invariant holds after every reset, with every configuration word and every draw (R22, R28, R35,
R36, R45, R46). -/
def Obligations.EveryResetSatisfiesInvariant : Prop :=
  ∀ (c : CfgWord) (d n : Nat) (rest : List HostInput), (resetWith c d n rest).Inv

/-! ## The step -/

/-- Every step keeps the invariant (R22, R27, R28, R32, R36, R51): `CFG_ERR` tells whether CFG is
illegal, exactly the selected strategy's state exists, histories fit their widths, tables hold only
entries they have, in canonical form, and no weight is -32. -/
def Obligations.StepKeepsInvariant : Prop := ∀ s t : State, s.Inv → step s = .next t → t.Inv

/-- R130: the step is total. In every state that meets the invariant it answers a next state, whatever
the host's next move is. -/
def Obligations.StepAlwaysAnswers : Prop := ∀ s : State, s.Inv → ∃ t, step s = .next t

/-- R130, R131, R141: from every reset, with every configuration, draw and sequence of host moves, no
run ever stops, and the invariant holds all along. -/
def Obligations.EveryRunFromEveryResetIsSafe : Prop :=
  ∀ (c : CfgWord) (d n k : Nat) (moves : List HostInput),
    ∃ t : State, Sys2Proof.core.run k (resetWith c d n moves) = .next t ∧ t.Inv

/-- A command word that passes the checks runs as the command it decodes to, the move being consumed
(R132, R134); and the word the host places with `withFetchWord` is that next command (log entry 12). -/
def Obligations.StepRunsDecodedCommand : Prop :=
  (∀ (s : State) (w : CmdWord) (rest : List HostInput) (i : Instr),
    s.inputs = .command w :: rest → s.cfgErr = false → decode (cfgStrategy s.cfg) w = .ok i →
    step s = exec i { s with inputs := rest }) ∧
  ∀ (s : State) (nbits w : Nat) (i : Instr),
    s.cfgErr = false → decode (cfgStrategy s.cfg) (BitVec.ofNat 64 (w % 2 ^ nbits)) = .ok i →
    step (s.withFetchWord nbits w) = exec i s

/-- R227: with no move of the host, the engine is idle and holds its state. That this is a step is the
model's convention (log entry 10). -/
def Obligations.IdleEngineHoldsItsState : Prop := ∀ s : State, s.inputs = [] → step s = .next s

/-- R213, R214, R215: a command that fails a check gets the response of the first check that fails,
in the order CFG_INVALID, ILLEGAL_OP, RSVD_NONZERO, and changes nothing else. -/
def Obligations.RejectedCommandsAnswerTheirError : Prop :=
  ∀ (s : State) (w : CmdWord) (rest : List HostInput), s.inputs = .command w :: rest →
    let answer := fun r : RspWord => { s with inputs := rest, responses := s.responses ++ [r] }
    let illegal := w.toNat % 4 = 0 ∨ w.toNat % 4 = 3
    let reserved := w.toNat / 8 % 2 ^ 29 ≠ 0 ∨ (w.toNat % 4 = 1 ∧ w.toNat / 4 % 2 = 1)
    (s.cfgErr = true → step s = .next (answer 0b110#3)) ∧
    (s.cfgErr = false → illegal → step s = .next (answer 0b010#3)) ∧
    (s.cfgErr = false → ¬illegal → reserved → step s = .next (answer 0b100#3))

/-- R212: while `CFG_ERR` = 1 every word returns CFG_INVALID and changes nothing; only a reset with a legal
configuration ends that; and no strategy state exists. That `exec` answers so too, for a command handed to
it directly, is the model's (log entry 7): R132 makes the check before a command executes. -/
def Obligations.CfgInvalidUntilLegalReset : Prop :=
  (∀ (s : State) (w : CmdWord) (rest : List HostInput), s.cfgErr = true → s.inputs = .command w :: rest →
    step s = .next { s with inputs := rest, responses := s.responses ++ [0b110#3] }) ∧
  (∀ (s : State) (i : Instr), s.cfgErr = true →
    exec i s = .next { s with responses := s.responses ++ [0b110#3] }) ∧
  (∀ s t : State, s.cfgErr = true → step s = .next t → t.cfgErr = false →
    ∃ c lost rest, s.inputs = .reset c lost :: rest ∧ cfgLegal c = true) ∧
  ∀ s : State, s.Inv → s.cfgErr = true → s.strat = .absent

/-- R133, and R81's rule for `PRED`: every accepted command produces exactly one response, after the
earlier ones, and its `PRED` bit is 0 unless it is an OK response to a PREDICT. -/
def Obligations.OneResponsePerCommand : Prop :=
  ∀ (s : State) (w : CmdWord) (rest : List HostInput), s.Inv → s.inputs = .command w :: rest →
    ∃ (t : State) (r : RspWord), step s = .next t ∧ t.inputs = rest ∧ t.responses = s.responses ++ [r] ∧
      (r.getLsbD 0 = true → r = 0b001#3 ∧ w &&& 0x00000000FFFFFFFF#64 = 0x0000000000000001#64)

/-- R81, R211: `ERR` in bits 2:1 with its four codes, `PRED` in bit 0. -/
def Obligations.ResponseWordLayout : Prop :=
  ∀ pred : Dir, rspWord .ok pred = (if pred then 0b001#3 else 0b000#3) ∧
    rspWord .illegalOp pred = (if pred then 0b011#3 else 0b010#3) ∧
    rspWord .rsvdNonzero pred = (if pred then 0b101#3 else 0b100#3) ∧
    rspWord .cfgInvalid pred = (if pred then 0b111#3 else 0b110#3)

/-- R141: no sequence of legal commands can fail once the configuration is legal: each gets a response
whose `ERR` is 00. -/
def Obligations.LegalCommandsNeverFail : Prop :=
  ∀ (s : State) (ws : List CmdWord), s.Inv → s.cfgErr = false → (∀ w ∈ ws, LegalWord w) →
    ∃ (t : State) (rs : List RspWord),
      Sys2Proof.core.run ws.length { s with inputs := ws.map .command } = .next t ∧
      t.responses = s.responses ++ rs ∧ rs.length = ws.length ∧ ∀ r ∈ rs, r.extractLsb' 1 2 = 0b00#2

/-- R23, R27: no command writes CFG or `CFG_ERR` or changes which strategy's state exists, and none
touches the host's further moves, the reset count or the source of draws (the model's own fields, log
entries 1 and 4). -/
def Obligations.CommandsKeepConfiguration : Prop :=
  ∀ (i : Instr) (s t : State), exec i s = .next t →
    t.cfg = s.cfg ∧ t.cfgErr = s.cfgErr ∧ t.strat.kind = s.strat.kind ∧ t.inputs = s.inputs ∧
      t.resets = s.resets ∧ t.source = s.source

/-- R241: a step that changes the configuration, the status bit or the kind of the strategy state is a
reset, and latches that reset's configuration word. -/
def Obligations.OnlyResetChangesConfiguration : Prop :=
  ∀ s t : State, step s = .next t →
    (t.cfg ≠ s.cfg ∨ t.cfgErr ≠ s.cfgErr ∨ t.strat.kind ≠ s.strat.kind ∨ t.resets ≠ s.resets) →
    ∃ c lost rest, s.inputs = .reset c lost :: rest ∧ t.cfg = c

/-- R135: a PREDICT leaves the state unchanged, whatever the strategy, apart from its response; and a
command changes the strategy state only if it is an error-free TRAIN. -/
def Obligations.PredictChangesNoState : Prop :=
  (∀ (i : Instr) (s t : State), i.isPredict = true → exec i s = .next t →
    ∃ r, t = { s with responses := s.responses ++ [r] }) ∧
  ∀ (s t : State) (w : CmdWord) (rest : List HostInput), s.inputs = .command w :: rest →
    step s = .next t → t.strat ≠ s.strat →
    w &&& 0x00000000FFFFFFFB#64 = 0x0000000000000002#64 ∧ s.cfgErr = false ∧
      t.responses = s.responses ++ [0b000#3]

/-- R136: any sequence of PREDICTs with no TRAIN between them returns for each pc the response a single
PREDICT would, and leaves the strategy state as it was. -/
def Obligations.RepeatedPredictsAgree : Prop :=
  ∀ s : State, s.Inv → ∃ answer : Pc → RspWord,
    (∀ pc, ∃ t : State, step { s with inputs := [.command (encodePredict pc)] } = .next t ∧
      t.responses = s.responses ++ [answer pc]) ∧
    ∀ pcs : List Pc, ∃ t : State,
      Sys2Proof.core.run pcs.length { s with inputs := pcs.map fun pc => .command (encodePredict pc) } = .next t ∧
      t.responses = s.responses ++ pcs.map answer ∧ t.strat = s.strat

/-- R137, R251: a TRAIN does not depend on the PREDICTs before it. After any PREDICTs, it leaves the
strategy state it would have left without them. -/
def Obligations.TrainDoesNotNeedThePredict : Prop :=
  ∀ (s : State) (pcs : List Pc) (pc : Pc) (o : Dir), s.Inv →
    ∃ t u : State,
      Sys2Proof.core.run (pcs.length + 1)
        { s with inputs := (pcs.map fun q => .command (encodePredict q)) ++ [.command (encodeTrain pc o)] } = .next t ∧
      step { s with inputs := [.command (encodeTrain pc o)] } = .next u ∧ t.strat = u.strat

/-- A command of one strategy handed to an engine that holds another strategy's state is refused; the
refusal is the model's choice (log entry 6), since decoding never makes such a command (R75). -/
def Obligations.OtherStrategyRefused : Prop :=
  ∀ (i : Instr) (s : State), s.cfgErr = false → s.strat.kind ≠ some i.strategy →
    exec i s = .refused .otherStrategy

/-- R64, R225: engines share nothing. A step of one leaves the others as they were, and steps of two
engines give the same in either order. -/
def Obligations.InstancesAreIndependent : Prop :=
  (∀ (es fs : List State) (k : Nat), stepAt es k = .next fs →
    fs.length = es.length ∧ ∀ j, j ≠ k → fs[j]? = es[j]?) ∧
  ∀ (es fs gs : List State) (j k : Nat), j ≠ k → stepAt es j = .next fs → stepAt es k = .next gs →
    ∃ hs, stepAt fs k = .next hs ∧ stepAt gs j = .next hs

/-! ## Datapath -/

/-- R102: the complete transition table of the counter, and its law for repeated equal outcomes. -/
def Obligations.CounterLaw : Prop :=
  (satUpdate ctrSN false = ctrSN ∧ satUpdate ctrSN true = ctrWN ∧ satUpdate ctrWN false = ctrSN ∧
    satUpdate ctrWN true = ctrWT ∧ satUpdate ctrWT false = ctrWN ∧ satUpdate ctrWT true = ctrST ∧
    satUpdate ctrST false = ctrWT ∧ satUpdate ctrST true = ctrST) ∧
  ∀ (c : Counter) (n : Nat),
    ((fun x => satUpdate x true)^[n] c).toNat = min (c.toNat + n) 3 ∧
    ((fun x => satUpdate x false)^[n] c).toNat = c.toNat - n

/-- R103: the counter predicts Taken iff it is at least WT (2), which its bit 1 says. -/
def Obligations.CounterOutput : Prop :=
  ∀ c : Counter, ctrPred c = decide (2 ≤ c.toNat) ∧ ctrPred c = c.getLsbD 1

/-- R104: the shifter as a number, in storage of any size that holds `w` bits: double, add the outcome,
keep `w` bits. For `w` = 1 the result is the outcome. -/
def Obligations.HistoryShift : Prop :=
  (∀ (n w : Nat) (h : BitVec n) (o : Dir), w ≤ n →
    (shiftIn h o w).toNat = (2 * h.toNat + o.toNat) % 2 ^ w) ∧
  (∀ (h : Hist) (o : Dir), (shiftIn h o 1).toNat = o.toNat) ∧ (shiftIn 3#32 false 2).toNat = 2

/-- R105: after outcomes `os` (the latest last), bit `i` is the outcome `i` places before the latest,
and the bits beyond are the starting value's, shifted up. -/
def Obligations.HistoryHoldsRecentOutcomes : Prop :=
  ∀ (n w : Nat) (h : BitVec n) (os : List Dir) (i : Nat), w ≤ n → h.toNat < 2 ^ w → os ≠ [] → i < w →
    (os.foldl (fun x o => shiftIn x o w) h).getLsbD i =
      if i < os.length then os.getD (os.length - 1 - i) false else h.getLsbD (i - os.length)

/-- R106, and R51 for every table: an engine's indices are the masks and registers the rules name, and
each is in range. -/
def Obligations.IndicesInRange : Prop :=
  (∀ (s : State) (g : GshareState) (pc : Pc), s.Inv → s.strat = .gshare g →
    gsIdx (cfgG s.cfg) pc g.ghr = (pc.toNat % 2 ^ cfgG s.cfg) ^^^ g.ghr.toNat ∧
      gsIdx (cfgG s.cfg) pc g.ghr < 2 ^ cfgG s.cfg) ∧
  (∀ (s : State) (x : TournamentState) (pc : Pc), s.Inv → s.strat = .tournament x →
    let r := tournRead (cfgP s.cfg) x pc
    r.gidx = x.ghr.toNat ∧ r.gidx < 2 ^ cfgG s.cfg ∧ r.slot = pc.toNat % 2 ^ cfgP s.cfg ∧
      r.slot < 2 ^ cfgP s.cfg ∧ r.lhist = readLht x.lht r.slot ∧ r.lhist.toNat < 2 ^ cfgL s.cfg) ∧
  ∀ pc : Pc, (percRow pc).val = (pc.extractLsb' 0 9).toNat

/-- R109, R110: the sign map, and the clamp with its corner cases. -/
def Obligations.SignMapAndClamp : Prop :=
  signMap true = 1 ∧ signMap false = -1 ∧ (∀ b, signMap b ≠ 0) ∧
  (∀ v : Int, clamp v = max (-31) (min 31 v)) ∧ clamp 32 = 31 ∧ clamp (-32) = -31 ∧
  ∀ v : Int, -31 ≤ v → v ≤ 31 → clamp v = v

/-- R111: the accumulator's sum, and its range for a row in range; a row of zeros gives 0. -/
def Obligations.DotProductRange : Prop :=
  ∀ (p : PerceptronState) (r : Fin 512) (h : PercHist),
    percSum p.pbias[r] p.pw[r] h = rowSum p r h ∧
    (RowReadable p r → -403 ≤ rowSum p r h ∧ rowSum p r h ≤ 403) ∧
    (p.pbias[r].toInt = 0 → (∀ i : Fin 12, p.pw[r][i].toInt = 0) → rowSum p r h = 0)

/-- R112, R113: the decision and the training condition, with their corner cases. -/
def Obligations.TrainingCondition : Prop :=
  (∀ y : Int, percPred y = true ↔ 0 ≤ y) ∧ percPred 0 = true ∧
  (∀ (y : Int) (o : Dir), percTrainEn y o = true ↔ percPred y ≠ o ∨ |y| ≤ 37) ∧
  percTrainEn 37 true = true ∧ percTrainEn 38 true = false ∧ percTrainEn 38 false = true ∧
  percTrainEn (-1) true = true

/-- R114: each of the 13 values moves one step toward agreement of its history bit with the outcome (the
bias: toward the outcome), and then clamps; it changes by exactly 1 unless the clamp holds it at ±31. -/
def Obligations.WeightsMoveOneStep : Prop :=
  ∀ (b : Weight) (ws : Vector Weight 12) (h : PercHist) (o : Dir),
    (trainBias b o).toInt = max (-31) (min 31 (b.toInt + if o then 1 else -1)) ∧
    (∀ i : Fin 12, (trainWeights ws h o)[i].toInt =
      max (-31) (min 31 (ws[i].toInt + if h.getLsbD i = o then 1 else -1))) ∧
    (b.toInt ≠ -32 → |(trainBias b o).toInt - b.toInt| = 1 ∨
      ((trainBias b o).toInt = b.toInt ∧ |b.toInt| = 31)) ∧
    ∀ i : Fin 12, ws[i].toInt ≠ -32 → |(trainWeights ws h o)[i].toInt - ws[i].toInt| = 1 ∨
      ((trainWeights ws h o)[i].toInt = ws[i].toInt ∧ |ws[i].toInt| = 31)

/-- R115, R116: the arbitration mux and the choice counter's update. -/
def Obligations.ArbitrationAndChoice : Prop :=
  (∀ (c : Counter) (gp lp : Dir), arb c gp lp = if 2 ≤ c.toNat then gp else lp) ∧
  ∀ (c : Counter) (gp lp o : Dir),
    (gp = lp → choiceUpdate c gp lp o = c) ∧
    (gp ≠ lp → gp = o → (choiceUpdate c gp lp o).toNat = min (c.toNat + 1) 3) ∧
    (gp ≠ lp → lp = o → (choiceUpdate c gp lp o).toNat = c.toNat - 1) ∧ (gp ≠ lp → gp = o ∨ lp = o)

/-! ## Static -/

/-- R150, R151: a Static engine answers Taken to every PREDICT, and its TRAIN changes nothing; both
complete in every state of such an engine. Their words are the rules'. -/
def Obligations.StaticCommands : Prop :=
  (∀ (pc : Pc) (o : Dir), EncodedAs .static (.staticPredict pc) (pc ++ 0x00000001#32) ∧
    EncodedAs .static (.staticTrain pc o) (pc ++ if o then 0x00000006#32 else 0x00000002#32)) ∧
  ∀ (s : State) (pc : Pc) (o : Dir), s.cfgErr = false → s.strat = .static →
    exec (.staticPredict pc) s = .next { s with responses := s.responses ++ [0b001#3] } ∧
    exec (.staticTrain pc o) s = .next { s with responses := s.responses ++ [0b000#3] }

/-! ## Gshare -/

/-- R160: GSHARE.PREDICT answers Taken iff the counter at `mask_G(pc) XOR GHR` is at least WT, and
changes nothing else; it completes in every state of a Gshare engine. Its word is the rule's. -/
def Obligations.GsharePredictReadsCounter : Prop :=
  (∀ pc : Pc, EncodedAs .gshare (.gsharePredict pc) (pc ++ 0x00000001#32)) ∧
  ∀ (s : State) (g : GshareState) (pc : Pc), s.cfgErr = false → s.strat = .gshare g →
    exec (.gsharePredict pc) s = .next { s with responses := s.responses ++
      [if 2 ≤ (readPht g.pht ((pc.toNat % 2 ^ cfgG s.cfg) ^^^ g.ghr.toNat)).toNat then 0b001#3 else 0b000#3] }

/-- R161, R162: GSHARE.TRAIN moves the counter the history before the command selects, then shifts the
outcome in; every other counter and everything else is unchanged. It completes in every state of a
Gshare engine whose width is at most 32, the largest there is (R9). -/
def Obligations.GshareTrainMovesOneCounter : Prop :=
  (∀ (pc : Pc) (o : Dir), EncodedAs .gshare (.gshareTrain pc o)
    (pc ++ if o then 0x00000006#32 else 0x00000002#32)) ∧
  ∀ (s : State) (g : GshareState) (pc : Pc) (o : Dir), s.cfgErr = false → s.strat = .gshare g →
    cfgG s.cfg ≤ 32 →
    ∃ g', exec (.gshareTrain pc o) s =
        .next { s with strat := .gshare g', responses := s.responses ++ [0b000#3] } ∧
      let idx := (pc.toNat % 2 ^ cfgG s.cfg) ^^^ g.ghr.toNat
      (readPht g'.pht idx).toNat = counterMoved (readPht g.pht idx) o ∧
      (∀ j, j ≠ idx → readPht g'.pht j = readPht g.pht j) ∧
      g'.ghr.toNat = (2 * g.ghr.toNat + o.toNat) % 2 ^ cfgG s.cfg

/-- R163: `n` consecutive Taken trainings that select the same counter, from WN, leave it at
`min(1 + n, 3)`; after one it is WT. `f` is the run of states, `pcs` the trained pcs. -/
def Obligations.GshareCounterRises : Prop :=
  ∀ (f : Nat → State) (gs : Nat → GshareState) (pcs : Nat → Pc) (n j : Nat), (f 0).cfgErr = false →
    (∀ k, k ≤ n → (f k).strat = .gshare (gs k)) →
    (∀ k, k < n → exec (.gshareTrain (pcs k) true) (f k) = .next (f (k + 1)) ∧
      ((pcs k).toNat % 2 ^ cfgG (f 0).cfg) ^^^ (gs k).ghr.toNat = j) →
    readPht (gs 0).pht j = ctrWN →
    (readPht (gs n).pht j).toNat = min (1 + n) 3 ∧
      (n = 1 → readPht (gs n).pht j = ctrWT ∧ ctrPred (readPht (gs n).pht j) = true)

/-! ## Tournament -/

/-- R170, R173: TOURN.PREDICT answers the global prediction if the choice counter is at least WT, else
the local one, and changes nothing else; it completes in every state of a Tournament engine. -/
def Obligations.TournPredictArbitrates : Prop :=
  (∀ pc : Pc, EncodedAs .tournament (.tournPredict pc) (pc ++ 0x00000001#32)) ∧
  ∀ (s : State) (x : TournamentState) (pc : Pc), s.cfgErr = false → s.strat = .tournament x →
    let gi := x.ghr.toNat
    let lh := (readLht x.lht (pc.toNat % 2 ^ cfgP s.cfg)).toNat
    let chosen := if 2 ≤ (readCt x.ct gi).toNat then readPht x.pht gi else readLpt x.lpt lh
    exec (.tournPredict pc) s = .next { s with responses := s.responses ++
      [if 2 ≤ chosen.toNat then 0b001#3 else 0b000#3] }

/-- R175: TOURN.TRAIN, every right-hand side from the values before the command: both counters move,
the choice counter on disagreement only, the outcome enters the local history and GHR; every other
entry and everything else is unchanged. It completes in every state of a Tournament engine whose
widths are at most 32 (R9). -/
def Obligations.TournTrainUpdates : Prop :=
  (∀ (pc : Pc) (o : Dir), EncodedAs .tournament (.tournTrain pc o)
    (pc ++ if o then 0x00000006#32 else 0x00000002#32)) ∧
  ∀ (s : State) (x : TournamentState) (pc : Pc) (o : Dir), s.cfgErr = false → s.strat = .tournament x →
    cfgG s.cfg ≤ 32 → cfgL s.cfg ≤ 32 →
    ∃ x', exec (.tournTrain pc o) s =
        .next { s with strat := .tournament x', responses := s.responses ++ [0b000#3] } ∧
      let gi := x.ghr.toNat
      let slot := pc.toNat % 2 ^ cfgP s.cfg
      let lh := (readLht x.lht slot).toNat
      let gp := decide (2 ≤ (readPht x.pht gi).toNat)
      let lp := decide (2 ≤ (readLpt x.lpt lh).toNat)
      (readPht x'.pht gi).toNat = counterMoved (readPht x.pht gi) o ∧
      (∀ j, j ≠ gi → readPht x'.pht j = readPht x.pht j) ∧
      (readLpt x'.lpt lh).toNat = counterMoved (readLpt x.lpt lh) o ∧
      (∀ j, j ≠ lh → readLpt x'.lpt j = readLpt x.lpt j) ∧
      (readCt x'.ct gi).toNat =
        (if gp = lp then (readCt x.ct gi).toNat else counterMoved (readCt x.ct gi) (decide (gp = o))) ∧
      (∀ j, j ≠ gi → readCt x'.ct j = readCt x.ct j) ∧
      (readLht x'.lht slot).toNat = (2 * lh + o.toNat) % 2 ^ cfgL s.cfg ∧
      (∀ j, j ≠ slot → readLht x'.lht j = readLht x.lht j) ∧
      x'.ghr.toNat = (2 * gi + o.toNat) % 2 ^ cfgG s.cfg

/-- R176: if the two predictions agree, the choice table after a TOURN.TRAIN is bit for bit the one
before, as data and in every entry, for every configuration; and no TOURN.TRAIN writes an entry other
than `CT[GHR]`. -/
def Obligations.ChoiceUnchangedOnAgreement : Prop :=
  (∀ (s t : State) (x y : TournamentState) (pc : Pc) (o : Dir), s.Inv → s.strat = .tournament x →
    exec (.tournTrain pc o) s = .next t → t.strat = .tournament y →
    (2 ≤ (readPht x.pht x.ghr.toNat).toNat ↔
      2 ≤ (readLpt x.lpt (readLht x.lht (pc.toNat % 2 ^ cfgP s.cfg)).toNat).toNat) →
    y.ct = x.ct ∧ ∀ j, readCt y.ct j = readCt x.ct j) ∧
  ∀ (s t : State) (x y : TournamentState) (pc : Pc) (o : Dir), s.strat = .tournament x →
    exec (.tournTrain pc o) s = .next t → t.strat = .tournament y →
    ∀ j, j ≠ x.ghr.toNat → readCt y.ct j = readCt x.ct j

/-! ## Perceptron -/

/-- R191: PERC.PREDICT answers Taken iff the row's sum is not negative, and changes nothing else; it
completes in every state of a Perceptron engine whose row holds no -32. -/
def Obligations.PercPredictSignOfSum : Prop :=
  (∀ pc : Pc, EncodedAs .perceptron (.percPredict pc) (pc ++ 0x00000001#32)) ∧
  ∀ (s : State) (p : PerceptronState) (pc : Pc) (r : Fin 512), s.cfgErr = false → s.strat = .perceptron p →
    r.val = pc.toNat % 512 → RowReadable p r →
    exec (.percPredict pc) s = .next { s with responses := s.responses ++
      [if 0 ≤ rowSum p r p.ghr then 0b001#3 else 0b000#3] }

/-- R192: PERC.TRAIN moves the row's 13 values one clamped step if the prediction was wrong or the
sum's magnitude at most 37, and leaves them otherwise; the outcome enters the history always, after
that; every other row and everything else is unchanged. It completes in every state of a Perceptron
engine whose row holds no -32. -/
def Obligations.PercTrainUpdatesRow : Prop :=
  (∀ (pc : Pc) (o : Dir), EncodedAs .perceptron (.percTrain pc o)
    (pc ++ if o then 0x00000006#32 else 0x00000002#32)) ∧
  ∀ (s : State) (p : PerceptronState) (pc : Pc) (o : Dir) (r : Fin 512), s.cfgErr = false →
    s.strat = .perceptron p → r.val = pc.toNat % 512 → RowReadable p r →
    ∃ p', exec (.percTrain pc o) s =
        .next { s with strat := .perceptron p', responses := s.responses ++ [0b000#3] } ∧
      let y := rowSum p r p.ghr
      let trains := decide (0 ≤ y) ≠ o ∨ |y| ≤ 37
      (trains → p'.pbias[r].toInt = max (-31) (min 31 (p.pbias[r].toInt + if o then 1 else -1)) ∧
        ∀ i : Fin 12, p'.pw[r][i].toInt =
          max (-31) (min 31 (p.pw[r][i].toInt + if p.ghr.getLsbD i = o then 1 else -1))) ∧
      (¬trains → p'.pbias[r] = p.pbias[r] ∧ p'.pw[r] = p.pw[r]) ∧
      (∀ q : Fin 512, q ≠ r → p'.pbias[q] = p.pbias[q] ∧ p'.pw[q] = p.pw[q]) ∧
      p'.ghr.toNat = (2 * p.ghr.toNat + o.toNat) % 2 ^ 12

/-- R193: a PERC.TRAIN whose sum is past the threshold on the correct side leaves the whole table
unchanged; and with the same history and outcome repeated (a history of all ones or all zeros), so
does every one after it. -/
def Obligations.ConfidentRowStopsChanging : Prop :=
  (∀ (s t : State) (p q : PerceptronState) (pc : Pc) (o : Dir), s.strat = .perceptron p →
    exec (.percTrain pc o) s = .next t → t.strat = .perceptron q → s.cfgErr = false →
    38 ≤ |rowSum p (percRow pc) p.ghr| → decide (0 ≤ rowSum p (percRow pc) p.ghr) = o →
    q.pbias = p.pbias ∧ q.pw = p.pw) ∧
  ∀ (s : State) (p : PerceptronState) (pc : Pc) (o : Dir) (n : Nat), s.Inv → s.strat = .perceptron p →
    p.ghr = (if o then 0xFFF#12 else 0x000#12) → 38 ≤ |rowSum p (percRow pc) p.ghr| →
    decide (0 ≤ rowSum p (percRow pc) p.ghr) = o →
    ∃ t : State, Sys2Proof.core.run n
        { s with inputs := List.replicate n (.command (encodeTrain pc o)) } = .next t ∧ t.strat = s.strat

/-- A Perceptron command whose row holds the pattern of -32 stops with a fault, as U14 asks, and does
so in no state that meets the invariant (R36). -/
def Obligations.RowWithMinus32Faults : Prop :=
  (∀ (s : State) (p : PerceptronState) (pc : Pc) (o : Dir), s.cfgErr = false → s.strat = .perceptron p →
    ¬RowReadable p (percRow pc) →
    exec (.percPredict pc) s = .fault .weightMinus32 ∧ exec (.percTrain pc o) s = .fault .weightMinus32) ∧
  ∀ (s : State) (p : PerceptronState) (r : Fin 512), s.Inv → s.strat = .perceptron p → RowReadable p r

/-! ## Across the strategies -/

/-- The first PREDICT after a reset (R150, R160, R173, R194): for every pc, Taken from a Static engine
and from a Perceptron engine that starts at ZERO, NotTaken from a Gshare and a Tournament engine. -/
def Obligations.FirstPredictionAfterReset : Prop :=
  ∀ (c : CfgWord) (d n : Nat) (pc : Pc), cfgLegal c = true →
    (cfgStrategy c = .perceptron → cfgPinit c = false) →
    ∃ t, step (resetWith c d n [.command (encodePredict pc)]) = .next t ∧
      t.responses = [if cfgStrategy c = .static ∨ cfgStrategy c = .perceptron then 0b001#3 else 0b000#3]

/-- R194: with every bias and weight 0, PERC.PREDICT answers Taken for every pc and every history. -/
def Obligations.ZeroWeightsPredictTaken : Prop :=
  ∀ (s : State) (p : PerceptronState) (pc : Pc), s.cfgErr = false → s.strat = .perceptron p →
    (∀ r : Fin 512, p.pbias[r].toInt = 0 ∧ ∀ i : Fin 12, p.pw[r][i].toInt = 0) →
    (∀ r : Fin 512, rowSum p r p.ghr = 0) ∧
    exec (.percPredict pc) s = .next { s with responses := s.responses ++ [0b001#3] }

/-- Which bits of the pc count (R108, R150, R160, R173, R191): pcs that agree in the low `G` (Gshare),
`P` (Tournament) or 9 (Perceptron) bits are one and the same to both commands; to Static all pcs
are. -/
def Obligations.OnlyIndexBitsOfPcMatter : Prop :=
  ∀ (s : State) (pc pc' : Pc) (o : Dir),
    (exec (.staticPredict pc) s = exec (.staticPredict pc') s ∧
      exec (.staticTrain pc o) s = exec (.staticTrain pc' o) s) ∧
    (pc.toNat % 2 ^ cfgG s.cfg = pc'.toNat % 2 ^ cfgG s.cfg →
      exec (.gsharePredict pc) s = exec (.gsharePredict pc') s ∧
      exec (.gshareTrain pc o) s = exec (.gshareTrain pc' o) s) ∧
    (pc.toNat % 2 ^ cfgP s.cfg = pc'.toNat % 2 ^ cfgP s.cfg →
      exec (.tournPredict pc) s = exec (.tournPredict pc') s ∧
      exec (.tournTrain pc o) s = exec (.tournTrain pc' o) s) ∧
    (pc.toNat % 512 = pc'.toNat % 512 →
      exec (.percPredict pc) s = exec (.percPredict pc') s ∧
      exec (.percTrain pc o) s = exec (.percTrain pc' o) s)

/-- R117, for the PREDICTs: two engines that agree in the configuration and in the entries R117 lists for
the command give the same response, whatever else their tables hold. -/
def Obligations.PredictReadsOnlyItsEntries : Prop :=
  ∀ (s u : State) (pc : Pc), s.cfg = u.cfg → s.cfgErr = false → u.cfgErr = false →
    let same := fun i : Instr => ∃ r : RspWord,
      exec i s = .next { s with responses := s.responses ++ [r] } ∧
      exec i u = .next { u with responses := u.responses ++ [r] }
    (s.strat = .static → u.strat = .static → same (.staticPredict pc)) ∧
    (∀ g g' : GshareState, s.strat = .gshare g → u.strat = .gshare g' → g.ghr = g'.ghr →
      (let idx := (pc.toNat % 2 ^ cfgG s.cfg) ^^^ g.ghr.toNat
       readPht g.pht idx = readPht g'.pht idx) → same (.gsharePredict pc)) ∧
    (∀ x x' : TournamentState, s.strat = .tournament x → u.strat = .tournament x' → x.ghr = x'.ghr →
      (let gi := x.ghr.toNat
       let slot := pc.toNat % 2 ^ cfgP s.cfg
       let lh := (readLht x.lht slot).toNat
       readPht x.pht gi = readPht x'.pht gi ∧ readCt x.ct gi = readCt x'.ct gi ∧
         readLht x.lht slot = readLht x'.lht slot ∧ readLpt x.lpt lh = readLpt x'.lpt lh) →
      same (.tournPredict pc)) ∧
    ∀ p p' : PerceptronState, s.strat = .perceptron p → u.strat = .perceptron p' → p.ghr = p'.ghr →
      RowReadable p (percRow pc) → p.pbias[percRow pc] = p'.pbias[percRow pc] →
      p.pw[percRow pc] = p'.pw[percRow pc] → same (.percPredict pc)

/-- R225, R244: engines started together have each its own configuration, at its own reset, and each its own
source of draws, which no step of any of them changes; so no two of them ever draw from one source. That a
source is a number in the state is the model's choice (log entries 4 and 14). -/
def Obligations.EnginesKeepTheirOwnDraws : Prop :=
  (∀ cs : List CfgWord, (startEngines cs).map State.cfg = cs ∧ OwnSources (startEngines cs) ∧
    ∀ e ∈ startEngines cs, e.Inv) ∧
  ∀ (es fs : List State) (k : Nat), stepAt es k = .next fs →
    fs.map State.source = es.map State.source ∧ (OwnSources es → OwnSources fs)
end

