-- ==== Sys2Proof/Laws/Flags.lean ====
section
/-! SUPPORT. One lemma for each decision of the datapath. -/

namespace Sys2Proof.Machine

theorem satUpdate_toNat (c : Counter) (o : Dir) :
    (satUpdate c o).toNat = if o then min (c.toNat + 1) 3 else c.toNat - 1 := by
  revert c o; decide

theorem signMap_eq (b : Bool) : signMap b = 1 ∨ signMap b = -1 := by cases b <;> simp [signMap]

theorem clamp_bounds (v : Int) : -31 ≤ clamp v ∧ clamp v ≤ 31 := by
  simp only [clamp, weightMax]; omega

/-- The value a stepped weight holds: stored and read back, the clamped sum is itself. -/
theorem stepWeight_toInt (w : Weight) (d : Int) : (stepWeight w d).toInt = clamp (w.toInt + d) := by
  have h := clamp_bounds (w.toInt + d)
  rw [stepWeight, BitVec.toInt_ofInt, Int.bmod_eq_of_le] <;> omega

theorem percPred_eq_true (y : Int) : percPred y = true ↔ 0 ≤ y := by simp [percPred]

theorem percTrainEn_eq_true (y : Int) (o : Dir) :
    percTrainEn y o = true ↔ percPred y ≠ o ∨ y.natAbs ≤ 37 := by
  rw [percTrainEn, decide_eq_true_iff, theta]

@[simp] theorem trainWeights_getElem (ws : Vector Weight 12) (h : PercHist) (o : Dir) (i : Nat) (hi : i < 12) :
    (trainWeights ws h o)[i] = stepWeight ws[i] (signMap o * signMap (h.getLsbD i)) :=
  Vector.getElem_ofFn hi

end Sys2Proof.Machine
end

