-- ==== Sys2Proof/Laws/State.lean ====
section
/-! SUPPORT. Each field after each update of the state. -/

namespace Sys2Proof.Machine

variable (s : State) (e : Err) (p : Dir) (x : Strat) (c : CfgWord) (d n : Nat) (rest : List HostInput) (w : CmdWord)

@[simp] theorem State.respond_cfg : (s.respond e p).cfg = s.cfg := rfl
@[simp] theorem State.respond_cfgErr : (s.respond e p).cfgErr = s.cfgErr := rfl
@[simp] theorem State.respond_strat : (s.respond e p).strat = s.strat := rfl
@[simp] theorem State.respond_inputs : (s.respond e p).inputs = s.inputs := rfl
@[simp] theorem State.respond_responses : (s.respond e p).responses = s.responses ++ [rspWord e p] := rfl
@[simp] theorem State.respond_resets : (s.respond e p).resets = s.resets := rfl
@[simp] theorem State.respond_source : (s.respond e p).source = s.source := rfl

@[simp] theorem State.setStrat_cfg : (s.setStrat x).cfg = s.cfg := rfl
@[simp] theorem State.setStrat_cfgErr : (s.setStrat x).cfgErr = s.cfgErr := rfl
@[simp] theorem State.setStrat_strat : (s.setStrat x).strat = x := rfl
@[simp] theorem State.setStrat_inputs : (s.setStrat x).inputs = s.inputs := rfl
@[simp] theorem State.setStrat_responses : (s.setStrat x).responses = s.responses := rfl
@[simp] theorem State.setStrat_resets : (s.setStrat x).resets = s.resets := rfl
@[simp] theorem State.setStrat_source : (s.setStrat x).source = s.source := rfl

@[simp] theorem resetWith_cfg : (resetWith c d n rest).cfg = c := rfl
@[simp] theorem resetWith_cfgErr : (resetWith c d n rest).cfgErr = !cfgLegal c := rfl
@[simp] theorem resetWith_strat : (resetWith c d n rest).strat = resetStrat c d n := rfl
@[simp] theorem resetWith_inputs : (resetWith c d n rest).inputs = rest := rfl
@[simp] theorem resetWith_responses : (resetWith c d n rest).responses = [] := rfl
@[simp] theorem resetWith_resets : (resetWith c d n rest).resets = n + 1 := rfl
@[simp] theorem resetWith_source : (resetWith c d n rest).source = d := rfl

@[simp] theorem State.offer_cfg : (s.offer w).cfg = s.cfg := rfl
@[simp] theorem State.offer_cfgErr : (s.offer w).cfgErr = s.cfgErr := rfl
@[simp] theorem State.offer_strat : (s.offer w).strat = s.strat := rfl
@[simp] theorem State.offer_inputs : (s.offer w).inputs = .command w :: s.inputs := rfl
@[simp] theorem State.offer_responses : (s.offer w).responses = s.responses := rfl
@[simp] theorem State.offer_resets : (s.offer w).resets = s.resets := rfl
@[simp] theorem State.offer_source : (s.offer w).source = s.source := rfl

/-- `State.reset` is what a first reset with the configuration word of log entry 2 leaves. -/
theorem reset_eq_resetWith : State.reset = resetWith Config.bootCfg 0 0 [] := by decide

end Sys2Proof.Machine
end

