-- ==== Sys2Proof/Laws/Instances.lean ====
section
/-! SUPPORT. What a step of one engine among several can do. -/

namespace Sys2Proof.Machine

/-- All that a step of engine `k` can lead to: nothing, there being no such engine, or that engine's own
step in its place. -/
theorem stepAt_next {es fs : List State} {k : Nat} (h : stepAt es k = .next fs) :
    (es[k]? = none ∧ fs = es) ∨ ∃ s t, es[k]? = some s ∧ step s = .next t ∧ fs = es.set k t := by
  unfold stepAt at h
  cases hk : es[k]? with
  | none => rw [hk] at h; exact .inl ⟨rfl, (Host.Outcome.next.inj h).symm⟩
  | some s =>
    simp only [hk] at h
    cases hs : step s with
    | next t => rw [hs] at h; exact .inr ⟨s, t, rfl, hs, (Host.Outcome.next.inj h).symm⟩
    | fault r => rw [hs] at h; cases h
    | refused r => rw [hs] at h; cases h

@[simp] theorem startEngines_length (cs : List CfgWord) : (startEngines cs).length = cs.length := by
  simp [startEngines]

theorem startEngines_getElem? (cs : List CfgWord) (k : Nat) :
    (startEngines cs)[k]? = cs[k]?.map fun c => resetWith c k 0 [] := by
  simp [startEngines]

end Sys2Proof.Machine
end

