-- ==== Sys2Proof/Laws/Operands.lean ====
section
/-! SUPPORT. Masks, histories and indices as numbers and as bits. -/

namespace Sys2Proof.Machine

@[simp] theorem mask_getLsbD {n : Nat} (w : Nat) (v : BitVec n) (i : Nat) :
    (mask w v).getLsbD i = (decide (i < w) && v.getLsbD i) := by
  by_cases h : i < n
  · simp [mask, h]
  · simp [mask, h, BitVec.getLsbD_of_ge v i (not_lt.1 h)]

theorem mask_toNat {n : Nat} (w : Nat) (v : BitVec n) : (mask w v).toNat = v.toNat % 2 ^ w := by
  have : v.toNat % 2 ^ w < 2 ^ n := lt_of_le_of_lt (Nat.mod_le _ _) v.isLt
  simp [mask, Nat.mod_eq_of_lt this]

theorem mask_toNat_lt {n : Nat} (w : Nat) (v : BitVec n) : (mask w v).toNat < 2 ^ w := by
  rw [mask_toNat]; exact Nat.mod_lt _ (Nat.two_pow_pos w)

theorem shiftIn_toNat_lt {n : Nat} (h : BitVec n) (o : Dir) (w : Nat) : (shiftIn h o w).toNat < 2 ^ w :=
  mask_toNat_lt w _

/-- The bits after a shift: the outcome at the bottom, the others one place up, within `w` bits. -/
theorem shiftIn_getLsbD {n : Nat} (h : BitVec n) (o : Dir) (w i : Nat) (hi : i < n) :
    (shiftIn h o w).getLsbD i =
      (decide (i < w) && if i = 0 then o else h.getLsbD (i - 1)) := by
  rw [shiftIn, mask_getLsbD]
  cases i with
  | zero => cases o <;> simp [hi]
  | succ i => cases o <;> simp [hi, show i < n by omega]

theorem gsIdx_eq (g : Nat) (pc : Pc) (ghr : Hist) : gsIdx g pc ghr = (pc.toNat % 2 ^ g) ^^^ ghr.toNat := by
  simp [gsIdx, mask_toNat]

theorem lslot_eq (p : Nat) (pc : Pc) : lslot p pc = pc.toNat % 2 ^ p := mask_toNat p pc

theorem lslot_lt (p : Nat) (pc : Pc) : lslot p pc < 2 ^ p := mask_toNat_lt p pc

@[simp] theorem percRow_val (pc : Pc) : (percRow pc).val = pc.toNat % 512 := rfl

end Sys2Proof.Machine
end

