-- ==== Sys2Proof/Laws/Ops.lean ====
section
/-! SUPPORT. What each shared operation can do, said once. -/

namespace Sys2Proof.Machine

/-- All that a command can do through `onSelected`: answer CFG_INVALID, work on its strategy's state, or
be refused as another strategy's. -/
theorem onSelected_cases {α : Type} (s : State) (pick : Strat → Option α)
    (k : α → Host.Outcome State Fault Refusal) :
    (s.cfgErr = true ∧ onSelected s pick k = .next (s.respond .cfgInvalid false)) ∨
    (∃ x, s.cfgErr = false ∧ pick s.strat = some x ∧ onSelected s pick k = k x) ∨
    (s.cfgErr = false ∧ pick s.strat = none ∧ onSelected s pick k = .refused .otherStrategy) := by
  cases he : s.cfgErr with
  | true => exact .inl ⟨rfl, by simp [onSelected, he]⟩
  | false =>
    cases hp : pick s.strat with
    | none => exact .inr (.inr ⟨rfl, rfl, by simp [onSelected, he, hp]⟩)
    | some x => exact .inr (.inl ⟨x, rfl, rfl, by simp [onSelected, he, hp]⟩)

/-- If a command through `onSelected` answers `next t`, it answered CFG_INVALID or worked on its
strategy's state. -/
theorem onSelected_next {α : Type} {s t : State} {pick : Strat → Option α}
    {k : α → Host.Outcome State Fault Refusal} (h : onSelected s pick k = .next t) :
    (s.cfgErr = true ∧ t = s.respond .cfgInvalid false) ∨
    (∃ x, s.cfgErr = false ∧ pick s.strat = some x ∧ k x = .next t) := by
  rcases onSelected_cases s pick k with ⟨he, hk⟩ | ⟨x, he, hx, hk⟩ | ⟨-, -, hk⟩
  · rw [hk] at h; exact .inl ⟨he, (Host.Outcome.next.inj h).symm⟩
  · rw [hk] at h; exact .inr ⟨x, he, hx, h⟩
  · rw [hk] at h; cases h

theorem onSelected_some {α : Type} {s : State} {pick : Strat → Option α} {x : α}
    (k : α → Host.Outcome State Fault Refusal) (he : s.cfgErr = false) (hx : pick s.strat = some x) :
    onSelected s pick k = k x := by simp [onSelected, he, hx]

@[simp] theorem static?_static : Strat.static.static? = some () := rfl
@[simp] theorem gshare?_gshare (g : GshareState) : (Strat.gshare g).gshare? = some g := rfl
@[simp] theorem tournament?_tournament (t : TournamentState) : (Strat.tournament t).tournament? = some t := rfl
@[simp] theorem perceptron?_perceptron (p : PerceptronState) : (Strat.perceptron p).perceptron? = some p := rfl

theorem static?_eq_some {x : Strat} {u : Unit} : x.static? = some u ↔ x = .static := by
  cases x <;> simp [Strat.static?]
theorem gshare?_eq_some {x : Strat} {g : GshareState} : x.gshare? = some g ↔ x = .gshare g := by
  cases x <;> simp [Strat.gshare?]
theorem tournament?_eq_some {x : Strat} {t : TournamentState} : x.tournament? = some t ↔ x = .tournament t := by
  cases x <;> simp [Strat.tournament?]
theorem perceptron?_eq_some {x : Strat} {p : PerceptronState} : x.perceptron? = some p ↔ x = .perceptron p := by
  cases x <;> simp [Strat.perceptron?]

theorem weightIllegal_iff (w : Weight) : weightIllegal w = true ↔ w.toInt = -32 := by
  revert w; decide

/-- A row is read if and only if none of its 13 values is the pattern of -32. -/
theorem readRow_eq_some {p : PerceptronState} {r : Fin 512} {b : Weight} {ws : Vector Weight 12} :
    readRow p r = some (b, ws) ↔
      (weightIllegal p.pbias[r] = false ∧ ∀ i : Fin 12, weightIllegal p.pw[r][i] = false) ∧
        b = p.pbias[r] ∧ ws = p.pw[r] := by
  have hall : (p.pw[r].toList.any weightIllegal = false) ↔ ∀ i : Fin 12, weightIllegal p.pw[r][i] = false := by
    rw [List.any_eq_false]
    constructor
    · intro h i
      simpa using h p.pw[r][i] (by simp)
    · intro h x hx
      obtain ⟨i, hi, rfl⟩ := List.mem_iff_getElem.1 hx
      simpa using h ⟨i, by simpa using hi⟩
  rw [← hall, readRow]
  cases weightIllegal p.pbias[r] <;> cases p.pw[r].toList.any weightIllegal <;> simp [eq_comm]

theorem readRow_eq_none {p : PerceptronState} {r : Fin 512} :
    readRow p r = none ↔ weightIllegal p.pbias[r] = true ∨ ∃ i : Fin 12, weightIllegal p.pw[r][i] = true := by
  cases h : readRow p r with
  | some x =>
    obtain ⟨⟨hb, hw⟩, -⟩ := readRow_eq_some.1 h
    exact ⟨nofun, fun hc => hc.elim (fun hc => by rw [hb] at hc; cases hc)
      fun ⟨i, hc⟩ => by rw [hw i] at hc; cases hc⟩
  | none =>
    simp only [true_iff]
    by_contra hc
    push Not at hc
    have := readRow_eq_some.2 ⟨⟨by simpa using hc.1, fun i => by simpa using hc.2 i⟩, rfl, rfl⟩
    rw [h] at this; cases this

@[simp] theorem writeRow_ghr (p : PerceptronState) (r : Fin 512) (b : Weight) (ws : Vector Weight 12) :
    (writeRow p r b ws).ghr = p.ghr := rfl

theorem writeRow_pbias (p : PerceptronState) (r q : Fin 512) (b : Weight) (ws : Vector Weight 12) :
    (writeRow p r b ws).pbias[q] = if q = r then b else p.pbias[q] := by
  simp [writeRow, Vector.getElem_set, Fin.ext_iff, eq_comm]

theorem writeRow_pw (p : PerceptronState) (r q : Fin 512) (b : Weight) (ws : Vector Weight 12) :
    (writeRow p r b ws).pw[q] = if q = r then ws else p.pw[q] := by
  simp [writeRow, Vector.getElem_set, Fin.ext_iff, eq_comm]

/-- Accepting a command word: CFG_INVALID, a decoding error, or the decoded command. -/
theorem acceptCommand_cases (w : CmdWord) (s : State) :
    (s.cfgErr = true ∧ acceptCommand w s = .settled (s.respond .cfgInvalid false)) ∨
    (∃ e, s.cfgErr = false ∧ decode (cfgStrategy s.cfg) w = .error e ∧
      acceptCommand w s = .settled (s.respond e false)) ∨
    (∃ i, s.cfgErr = false ∧ decode (cfgStrategy s.cfg) w = .ok i ∧ acceptCommand w s = .run i s) := by
  cases he : s.cfgErr with
  | true => exact .inl ⟨rfl, by simp [acceptCommand, he]⟩
  | false =>
    cases hd : decode (cfgStrategy s.cfg) w with
    | error e => exact .inr (.inl ⟨e, rfl, rfl, by simp [acceptCommand, he, hd]⟩)
    | ok i => exact .inr (.inr ⟨i, rfl, rfl, by simp [acceptCommand, he, hd]⟩)

end Sys2Proof.Machine
end

