-- ==== Sys2Proof/Laws/Table.lean ====
section
/-! SUPPORT. The laws of the sparse tables: reading after writing, and the canonical form. -/

namespace Sys2Proof.Machine

variable {α : Type}

@[simp] theorem tableRead_nil (init : α) (i : Nat) : tableRead init [] i = init := rfl

theorem tableRead_erase_same (init : α) (t : Table α) (i : Nat) : tableRead init (tableErase t i) i = init := by
  induction t with
  | nil => rfl
  | cons e t ih =>
    by_cases h : e.1 = i
    · simpa [tableErase, h] using ih
    · simpa [tableErase, tableRead, h] using ih

theorem tableRead_erase_ne (init : α) (t : Table α) {i j : Nat} (hj : j ≠ i) :
    tableRead init (tableErase t i) j = tableRead init t j := by
  induction t with
  | nil => rfl
  | cons e t ih =>
    by_cases h : e.1 = i
    · have : e.1 ≠ j := fun hej => hj (hej ▸ h)
      simpa [tableErase, tableRead, h, Ne.symm hj] using ih
    · by_cases h' : e.1 = j
      · subst h'
        simp [tableErase, tableRead, h]
      · simpa [tableErase, tableRead, h, h'] using ih

theorem tableRead_insert_ne (init : α) (t : Table α) {i j : Nat} (v : α) (hj : j ≠ i) :
    tableRead init (tableInsert i v t) j = tableRead init t j := by
  induction t with
  | nil => simp [tableInsert, tableRead, Ne.symm hj]
  | cons e t ih =>
    by_cases h : i < e.1
    · simp [tableInsert, tableRead, h, Ne.symm hj]
    · simp [tableInsert, tableRead, h, ih]

theorem tableRead_insert_same (init : α) (t : Table α) {i : Nat} (v : α) (ht : ∀ e ∈ t, e.1 ≠ i) :
    tableRead init (tableInsert i v t) i = v := by
  induction t with
  | nil => simp [tableInsert, tableRead]
  | cons e t ih =>
    by_cases h : i < e.1
    · simp [tableInsert, tableRead, h]
    · have he : e.1 ≠ i := ht e (by simp)
      simp [tableInsert, tableRead, h, he, ih fun a ha => ht a (by simp [ha])]

theorem mem_tableErase {t : Table α} {i : Nat} {e : Nat × α} : e ∈ tableErase t i ↔ e ∈ t ∧ e.1 ≠ i := by
  simp [tableErase]

theorem mem_tableInsert {t : Table α} {i : Nat} {v : α} {e : Nat × α} :
    e ∈ tableInsert i v t ↔ e = (i, v) ∨ e ∈ t := by
  induction t with
  | nil => simp [tableInsert]
  | cons a t ih =>
    by_cases h : i < a.1
    · simp [tableInsert, h]
    · simp only [tableInsert, h, ↓reduceIte, List.mem_cons, ih]
      tauto

variable [DecidableEq α]

/-- Reading the entry just written gives the value written. -/
@[simp] theorem tableRead_write_same (init : α) (t : Table α) (i : Nat) (v : α) :
    tableRead init (tableWrite init t i v) i = v := by
  by_cases h : v = init
  · simp [tableWrite, h, tableRead_erase_same]
  · simp only [tableWrite, h, ↓reduceIte]
    exact tableRead_insert_same init _ v fun e he => (mem_tableErase.1 he).2

/-- A write leaves every other entry alone. -/
theorem tableRead_write_ne (init : α) (t : Table α) {i j : Nat} (v : α) (hj : j ≠ i) :
    tableRead init (tableWrite init t i v) j = tableRead init t j := by
  by_cases h : v = init
  · simp [tableWrite, h, tableRead_erase_ne init t hj]
  · simp [tableWrite, h, tableRead_insert_ne init _ v hj, tableRead_erase_ne init t hj]

/-- The entries after a write: the one written, and the others. -/
theorem mem_tableWrite {init : α} {t : Table α} {i : Nat} {v : α} {e : Nat × α}
    (he : e ∈ tableWrite init t i v) : (e = (i, v) ∧ v ≠ init) ∨ (e ∈ t ∧ e.1 ≠ i) := by
  by_cases h : v = init
  · exact .inr (mem_tableErase.1 (by simpa [tableWrite, h] using he))
  · simp only [tableWrite, h, ↓reduceIte, mem_tableInsert, mem_tableErase] at he
    exact he.imp (fun hw => ⟨hw, h⟩) id

omit [DecidableEq α] in
/-- A read gives the reset entry or an entry the table lists. -/
theorem tableRead_cases (init : α) (t : Table α) (i : Nat) :
    tableRead init t i = init ∨ (i, tableRead init t i) ∈ t := by
  induction t with
  | nil => exact .inl rfl
  | cons e t ih =>
    obtain ⟨k, v⟩ := e
    by_cases h : k = i
    · right; simp [tableRead, h]
    · simp only [tableRead, h, ↓reduceIte, List.mem_cons]
      exact ih.imp id .inr

omit [DecidableEq α] in
theorem tableErase_sorted {t : Table α} (i : Nat) (ht : t.Pairwise fun a b => a.1 < b.1) :
    (tableErase t i).Pairwise fun a b => a.1 < b.1 := List.Pairwise.filter _ ht

omit [DecidableEq α] in
theorem tableInsert_sorted {t : Table α} {i : Nat} (v : α) (ht : t.Pairwise fun a b => a.1 < b.1)
    (hi : ∀ e ∈ t, e.1 ≠ i) : (tableInsert i v t).Pairwise fun a b => a.1 < b.1 := by
  induction t with
  | nil => simp [tableInsert]
  | cons a t ih =>
    obtain ⟨ha, ht'⟩ := List.pairwise_cons.1 ht
    by_cases h : i < a.1
    · simp only [tableInsert, h, ↓reduceIte, List.pairwise_cons, List.mem_cons]
      exact ⟨fun b hb => hb.elim (fun hb => hb ▸ h) fun hb => lt_trans h (ha b hb), ha, ht'⟩
    · have hai : a.1 < i := lt_of_le_of_ne (not_lt.1 h) (hi a (by simp))
      simp only [tableInsert, h, ↓reduceIte, List.pairwise_cons]
      refine ⟨fun b hb => ?_, ih ht' fun e he => hi e (by simp [he])⟩
      rcases mem_tableInsert.1 hb with rfl | hb
      · exact hai
      · exact ha b hb

theorem Table.wf_nil (init : α) (size : Nat) : Table.wf init size ([] : Table α) := by simp [Table.wf]

/-- A write in range keeps the canonical form. -/
theorem tableWrite_wf {init : α} {size : Nat} {t : Table α} {i : Nat} (v : α) (ht : Table.wf init size t)
    (hi : i < size) : Table.wf init size (tableWrite init t i v) := by
  refine ⟨?_, fun e he => ?_⟩
  · by_cases h : v = init
    · simpa [tableWrite, h] using tableErase_sorted i ht.1
    · simpa [tableWrite, h] using
        tableInsert_sorted v (tableErase_sorted i ht.1) fun e he => (mem_tableErase.1 he).2
  · rcases mem_tableWrite he with ⟨rfl, hv⟩ | ⟨he, -⟩
    · exact ⟨hi, hv⟩
    · exact ht.2 e he

/-- In canonical form, tables that read the same everywhere are the same data. -/
theorem Table.wf_ext {init : α} {size : Nat} {t u : Table α} (ht : Table.wf init size t)
    (hu : Table.wf init size u) (h : ∀ i, tableRead init t i = tableRead init u i) : t = u := by
  have key : ∀ {x y : Table α}, Table.wf init size x → Table.wf init size y →
      (∀ i, tableRead init x i = tableRead init y i) → ∀ e ∈ x, e ∈ y := by
    intro x y hx hy hxy e he
    have hread : tableRead init x e.1 = e.2 := by
      clear hxy
      induction x with
      | nil => simp at he
      | cons a x ih =>
        obtain ⟨ha, hx'⟩ := List.pairwise_cons.1 hx.1
        rcases List.mem_cons.1 he with rfl | he
        · simp [tableRead]
        · have : a.1 ≠ e.1 := (ha e he).ne
          simpa [tableRead, this] using ih ⟨hx', fun b hb => hx.2 b (by simp [hb])⟩ he
    rcases tableRead_cases init y e.1 with h' | h'
    · exact absurd (hread.symm.trans ((hxy e.1).trans h')) (hx.2 e he).2
    · rwa [← hxy, hread] at h'
  have hnd : ∀ {x : Table α}, Table.wf init size x → x.Nodup := fun hx =>
    hx.1.imp fun hab hEq => by simp [hEq] at hab
  have hperm : t.Perm u := (List.perm_ext_iff_of_nodup (hnd ht) (hnd hu)).2 fun e =>
    ⟨key ht hu h e, key hu ht (fun i => (h i).symm) e⟩
  exact hperm.eq_of_pairwise (fun a b _ _ hab hba => absurd hab (lt_asymm hba)) ht.1 hu.1

end Sys2Proof.Machine
end

