-- ==== Sys2Proof/Laws/Meanings.lean ====
section
/-! SUPPORT. Each command with a state of its own strategy, in terms of that state alone. -/

namespace Sys2Proof.Machine

variable {s : State} (pc : Pc) (o : Dir)

theorem exec_gsharePredict {g : GshareState} (he : s.cfgErr = false) (hs : s.strat = .gshare g) :
    exec (.gsharePredict pc) s = .next (s.respond .ok (gsharePred (cfgG s.cfg) g pc)) :=
  onSelected_some _ he (gshare?_eq_some.2 hs)

theorem exec_gshareTrain {g : GshareState} (he : s.cfgErr = false) (hs : s.strat = .gshare g) :
    exec (.gshareTrain pc o) s =
      .next ((s.setStrat (.gshare (gshareTrained (cfgG s.cfg) g pc o))).respond .ok false) :=
  onSelected_some _ he (gshare?_eq_some.2 hs)

theorem exec_tournPredict {t : TournamentState} (he : s.cfgErr = false) (hs : s.strat = .tournament t) :
    exec (.tournPredict pc) s = .next (s.respond .ok (tournPred (cfgP s.cfg) t pc)) :=
  onSelected_some _ he (tournament?_eq_some.2 hs)

theorem exec_tournTrain {t : TournamentState} (he : s.cfgErr = false) (hs : s.strat = .tournament t) :
    exec (.tournTrain pc o) s =
      .next ((s.setStrat (.tournament (tournTrained (cfgG s.cfg) (cfgL s.cfg) (cfgP s.cfg) t pc o))).respond
        .ok false) :=
  onSelected_some _ he (tournament?_eq_some.2 hs)

theorem exec_percPredict {p : PerceptronState} {b : Weight} {ws : Vector Weight 12} (he : s.cfgErr = false)
    (hs : s.strat = .perceptron p) (hr : readRow p (percRow pc) = some (b, ws)) :
    exec (.percPredict pc) s = .next (s.respond .ok (percPred (percSum b ws p.ghr))) := by
  refine (onSelected_some _ he (perceptron?_eq_some.2 hs)).trans ?_
  simp only [hr]

theorem exec_percTrain {p : PerceptronState} {b : Weight} {ws : Vector Weight 12} (he : s.cfgErr = false)
    (hs : s.strat = .perceptron p) (hr : readRow p (percRow pc) = some (b, ws)) :
    exec (.percTrain pc o) s =
      .next ((s.setStrat (.perceptron (percTrained p (percRow pc) b ws o))).respond .ok false) := by
  refine (onSelected_some _ he (perceptron?_eq_some.2 hs)).trans ?_
  simp only [hr]

theorem readLht_lt {l : Nat} {t : Table Hist} (ht : ∀ e ∈ t, e.2.toNat < 2 ^ l) (i : Nat) :
    (readLht t i).toNat < 2 ^ l := by
  rcases tableRead_cases 0#32 t i with h | h
  · rw [readLht, h]; simp
  · exact ht _ h

/-- In a history table, a write of a history that fits keeps every history fitting. -/
theorem writeLht_fits {l : Nat} {t : Table Hist} (ht : ∀ e ∈ t, e.2.toNat < 2 ^ l) (i : Nat) {h : Hist}
    (hh : h.toNat < 2 ^ l) : ∀ e ∈ writeLht t i h, e.2.toNat < 2 ^ l := by
  intro e he
  rcases mem_tableWrite he with ⟨rfl, -⟩ | ⟨he, -⟩
  · exact hh
  · exact ht e he

end Sys2Proof.Machine
end

