-- ==== Sys2Proof/Laws/PerInstr.lean ====
section
/-! SUPPORT. Facts about every command as syntax, one lemma for each. -/

namespace Sys2Proof.Laws.EncodingShape

/-- The word of a command has the fixed bits of its row of the opcode table (R76, R77) and its pc in
bits 63:32 (R74). -/
def Statement (i : Instr) : Prop :=
  cmdPc (encode i) = i.pc ∧ cmdRsvd (encode i) = 0#29 ∧
    cmdOp (encode i) = (if i.isPredict then 0b01#2 else 0b10#2) ∧ (i.isPredict = true → cmdOut (encode i) = false)

theorem cmdPc_cmdWord (pc : Pc) (r : BitVec 29) (o : Dir) (op : BitVec 2) : cmdPc (cmdWord pc r o op) = pc := by
  ext i hi
  simp only [cmdPc, cmdWord, BitVec.getElem_extractLsb', BitVec.getLsbD_append]
  simp [show ¬ 32 + i < 2 by omega, show ¬ 32 + i - 2 < 1 by omega, show ¬ 32 + i - 3 < 29 by omega, Nat.sub_sub,
    BitVec.getLsbD_eq_getElem hi]

theorem cmdRsvd_cmdWord (pc : Pc) (r : BitVec 29) (o : Dir) (op : BitVec 2) : cmdRsvd (cmdWord pc r o op) = r := by
  ext i hi
  simp only [cmdRsvd, cmdWord, BitVec.getElem_extractLsb', BitVec.getLsbD_append]
  simp [show ¬ 3 + i < 2 by omega, show ¬ 3 + i - 2 < 1 by omega, show 3 + i - 2 - 1 = i by omega, hi]

theorem cmdOut_cmdWord (pc : Pc) (r : BitVec 29) (o : Dir) (op : BitVec 2) : cmdOut (cmdWord pc r o op) = o := by
  simp only [cmdOut, cmdWord, BitVec.getLsbD_append]
  simp

theorem cmdOp_cmdWord (pc : Pc) (r : BitVec 29) (o : Dir) (op : BitVec 2) : cmdOp (cmdWord pc r o op) = op := by
  ext i hi
  simp only [cmdOp, cmdWord, BitVec.getElem_extractLsb', BitVec.getLsbD_append]
  simp [hi]

theorem of_predict {i : Instr} {pc : Pc} (he : encode i = encodePredict pc) (hp : i.pc = pc)
    (hi : i.isPredict = true) : Statement i := by
  simp [Statement, he, hp, hi, encodePredict, cmdPc_cmdWord, cmdRsvd_cmdWord, cmdOut_cmdWord, cmdOp_cmdWord]

theorem of_train {i : Instr} {pc : Pc} {o : Dir} (he : encode i = encodeTrain pc o) (hp : i.pc = pc)
    (hi : i.isPredict = false) : Statement i := by
  simp [Statement, he, hp, hi, encodeTrain, cmdPc_cmdWord, cmdRsvd_cmdWord, cmdOp_cmdWord]

theorem staticPredict (pc : Pc) : Statement (.staticPredict pc) := of_predict rfl rfl rfl
theorem staticTrain (pc : Pc) (o : Dir) : Statement (.staticTrain pc o) := of_train rfl rfl rfl
theorem gsharePredict (pc : Pc) : Statement (.gsharePredict pc) := of_predict rfl rfl rfl
theorem gshareTrain (pc : Pc) (o : Dir) : Statement (.gshareTrain pc o) := of_train rfl rfl rfl
theorem tournPredict (pc : Pc) : Statement (.tournPredict pc) := of_predict rfl rfl rfl
theorem tournTrain (pc : Pc) (o : Dir) : Statement (.tournTrain pc o) := of_train rfl rfl rfl
theorem percPredict (pc : Pc) : Statement (.percPredict pc) := of_predict rfl rfl rfl
theorem percTrain (pc : Pc) (o : Dir) : Statement (.percTrain pc o) := of_train rfl rfl rfl

end Sys2Proof.Laws.EncodingShape
end

