-- ==== Sys2Proof/Laws/Step.lean ====
section
/-! SUPPORT. What one step can do. -/

namespace Sys2Proof.Machine

/-- All that a step can do: stay idle, take a reset, answer CFG_INVALID or a decoding error, or run the
decoded command. -/
theorem step_cases (s : State) :
    (s.inputs = [] ∧ step s = .next s) ∨
    (∃ c lost rest, s.inputs = .reset c lost :: rest ∧ step s = .next (resetWith c s.source s.resets rest)) ∨
    (∃ w rest, s.inputs = .command w :: rest ∧ s.cfgErr = true ∧
      step s = .next (State.respond { s with inputs := rest } .cfgInvalid false)) ∨
    (∃ w rest e, s.inputs = .command w :: rest ∧ s.cfgErr = false ∧
      decode (cfgStrategy s.cfg) w = .error e ∧
      step s = .next (State.respond { s with inputs := rest } e false)) ∨
    (∃ w rest i, s.inputs = .command w :: rest ∧ s.cfgErr = false ∧
      decode (cfgStrategy s.cfg) w = .ok i ∧ step s = exec i { s with inputs := rest }) := by
  cases hi : s.inputs with
  | nil => exact .inl ⟨rfl, by simp [step, accept, hi]⟩
  | cons m rest =>
    cases m with
    | reset c lost => exact .inr (.inl ⟨c, lost, rest, rfl, by simp [step, accept, hi]⟩)
    | command w =>
      right; right
      rcases acceptCommand_cases w { s with inputs := rest } with ⟨he, h⟩ | ⟨e, he, hd, h⟩ | ⟨i, he, hd, h⟩
      · exact .inl ⟨w, rest, rfl, he, by simp [step, accept, hi, h]⟩
      · exact .inr (.inl ⟨w, rest, e, rfl, he, hd, by simp [step, accept, hi, h]⟩)
      · exact .inr (.inr ⟨w, rest, i, rfl, he, hd, by simp [step, accept, hi, h]⟩)

end Sys2Proof.Machine
end

