-- ==== Sys2Proof/Tests/Slice0.lean ====
section
/-! SUPPORT. Small tests, their expected values from the spec's encodings and worked vectors, and a
witness for each statement that has hypotheses. -/

namespace Sys2Proof.Tests

open Sys2Proof.Machine

/-! ## States to test on -/

/-- An engine holding a strategy state, no move pending and no response yet. -/
def engine (c : CfgWord) (x : Strat) : State :=
  { cfg := c, cfgErr := false, strat := x, inputs := [], responses := [], resets := 1, source := 0 }

/-- What a test looks at after one command: the response and the strategy state. -/
def outcome (i : Instr) (s : State) : Option (List RspWord × Strat) :=
  match exec i s with
  | .next t => some (t.responses, t.strat)
  | .fault _ => none
  | .refused _ => none

/-- The response and one row of a Perceptron engine after one command, with its history. -/
def percOutcome (i : Instr) (r : Fin 512) (s : State) :
    Option (List RspWord × Weight × Vector Weight 12 × PercHist) :=
  match exec i s with
  | .next t =>
    match t.strat with
    | .perceptron p => some (t.responses, p.pbias[r], p.pw[r], p.ghr)
    | _ => none
  | .fault _ => none
  | .refused _ => none

/-- A Gshare engine with `G` = 3 (CFG = 0x0000000D). -/
def gshare3 (ghr : Hist) (pht : Table Counter) : State := engine 0x0000000D#32 (.gshare ⟨ghr, pht⟩)

/-- The two Tournament states of 95 part 2.7, `G` = `L` = `P` = 2 (CFG = 0x0000820A). -/
def tournA : State := engine 0x0000820A#32 (.tournament ⟨0, [(0, 2)], [(0, 3), (1, 0)], [], []⟩)
def tournB : State := engine 0x0000820A#32 (.tournament ⟨1, [], [(1, 0)], [], [(0, 2)]⟩)

/-- A Perceptron engine, every row equal to the one given (CFG = 0x00000003). -/
def percAll (b : Weight) (ws : Vector Weight 12) (h : PercHist) : State :=
  engine 0x00000003#32 (.perceptron ⟨h, Vector.replicate 512 b, Vector.replicate 512 ws⟩)

/-! ## Well-formedness, decoding, configuration -/

/-- R75: a Gshare command is none of a Static engine's. -/
theorem test_wf_refuses_other_strategy : (Instr.gsharePredict 0x4#32).wf .static = false := by decide

/-- R87 and R75, each word written out bit by bit: 32 pc bits, 29 zeros, OUT, OP. -/
theorem test_decode_static : decode .static
    0b0000000000000000000000000000010000000000000000000000000000000001#64 = .ok (.staticPredict 4) ∧
    decode .static 0b0000000000000000000000000000100000000000000000000000000000000010#64 =
      .ok (.staticTrain 8 false) := by decide
theorem test_decode_gshare : decode .gshare
    0b0000000000000000000000000000010000000000000000000000000000000001#64 = .ok (.gsharePredict 4) ∧
    decode .gshare 0b0000000000000000000000000000010000000000000000000000000000000110#64 =
      .ok (.gshareTrain 4 true) := by decide
theorem test_decode_tournament : decode .tournament
    0b1111111111111111111111111111111100000000000000000000000000000001#64 = .ok (.tournPredict 0xFFFFFFFF) ∧
    decode .tournament 0b0000000000000000000000000000000100000000000000000000000000000110#64 =
      .ok (.tournTrain 1 true) := by decide
theorem test_decode_perceptron : decode .perceptron
    0b0000000000000000000000100000010100000000000000000000000000000001#64 = .ok (.percPredict 0x205) ∧
    decode .perceptron 0b1000000000000000000000000000000000000000000000000000000000000010#64 =
      .ok (.percTrain 0x80000000 false) := by decide

/-- 95 part 2.8: the rejected words, among them one with OP = 11 and reserved bits set. -/
theorem test_decode_rejects : decode .gshare 0x00000000FFFFFFFF#64 = .error .illegalOp ∧
    decode .gshare 0x0000000000000004#64 = .error .illegalOp ∧
    decode .gshare 0x0000000400000005#64 = .error .rsvdNonzero ∧
    decode .gshare 0x0000000080000002#64 = .error .rsvdNonzero := by decide

/-- The encoder writes the words of R87. -/
theorem test_encode : encode (.gshareTrain 0x8 false) = 0x0000000800000002#64 ∧
    encode (.percPredict 0xFFFFFFFF) = 0xFFFFFFFF00000001#64 := by decide

/-- 95 part 2.9, with the three maxima at 32. -/
theorem test_legality : [0x00000000#32, 0xFFFFFFFC#32, 0x00000001#32, 0x00000005#32, 0x00000081#32,
    0x00000085#32, 0x0000020A#32, 0x0000400A#32, 0x0000420A#32, 0x00000003#32, 0x00100003#32, 0xFFE00003#32].map
      (cfgLegalFor 32 32 32) =
    [true, true, false, true, true, false, false, false, true, true, true, true] := by decide

/-! ## The step -/

/-- The first PREDICT after `State.reset` runs and answers Taken (R150); the decoder reads it so. -/
theorem test_first_predict : decodeTableWord 64 1 = some (.staticPredict 0) ∧
    (match step (State.reset.withFetchWord 64 1) with
      | .next t => t.responses
      | .fault _ => []
      | .refused _ => []) = [0b001#3] := by decide

/-- 95 part 2.8: with `CFG_ERR` = 1 even an illegal word is answered CFG_INVALID (R215). -/
theorem test_cfg_invalid_first :
    (match step { engine 0x00000001#32 .absent with cfgErr := true, inputs := [.command 0x00000000FFFFFFFF#64] } with
      | .next t => t.responses
      | .fault _ => []
      | .refused _ => []) = [0b110#3] := by decide

/-! ## Commands, 95 part 2.7 -/

theorem test_static_predict : outcome (.staticPredict 0xFFFFFFFF) (engine 0 .static) = some ([0b001#3], .static) := by
  decide
theorem test_static_train : outcome (.staticTrain 0x4 false) (engine 0 .static) = some ([0b000#3], .static) := by decide

theorem test_gshare_predict_weak : outcome (.gsharePredict 0x9) (gshare3 4 []) =
    some ([0b000#3], .gshare ⟨4, []⟩) := by decide
/-- 95 P5, step 3: `PREDICT 0x1` with `G` = 1, `GHR` = 1, `PHT` = [2,1] reads entry 0. -/
theorem test_gshare_predict_index : outcome (.gsharePredict 0x1) (engine 0x00000005#32 (.gshare ⟨1, [(0, 2)]⟩)) =
    some ([0b001#3], .gshare ⟨1, [(0, 2)]⟩) := by decide
theorem test_gshare_train_saturates_up : outcome (.gshareTrain 0x0 true) (gshare3 5 [(5, 3)]) =
    some ([0b000#3], .gshare ⟨3, [(5, 3)]⟩) := by decide
/-- `G` = 1, `TRAIN 0x1, N`: the entry is WN again, its reset value, so the table lists nothing. -/
theorem test_gshare_train_back_to_reset :
    outcome (.gshareTrain 0x1 false) (engine 0x00000005#32 (.gshare ⟨1, [(0, 2)]⟩)) =
      some ([0b000#3], .gshare ⟨0, []⟩) := by decide

theorem test_tourn_predict_global : (outcome (.tournPredict 0x0) tournA).map Prod.fst = some [0b001#3] := by decide
theorem test_tourn_predict_local : (outcome (.tournPredict 0x6) tournB).map Prod.fst = some [0b001#3] := by decide
theorem test_tourn_train_global_right : outcome (.tournTrain 0x0 true) tournA =
    some ([0b000#3], .tournament ⟨1, [(0, 3)], [(0, 3), (1, 0)], [(0, 1)], [(0, 2)]⟩) := by decide
theorem test_tourn_train_local_right : outcome (.tournTrain 0x6 true) tournB =
    some ([0b000#3], .tournament ⟨3, [(1, 2)], [(1, 0)], [(2, 1)], [(0, 3)]⟩) := by decide

theorem test_perc_predict_max : (percOutcome (.percPredict 0x0) 0 (percAll 31 (.replicate 12 31) 0xFFF#12)).map
    Prod.fst = some [0b001#3] := by decide
/-- R191's example: bias 1, every weight -1, `GHR` = 1 gives 11. -/
theorem test_perc_sum : percSum 1 (.replicate 12 (-1)) 0x001#12 = 11 ∧
    percSum (-31) (.replicate 12 31) 0x000#12 = -403 := by decide
theorem test_perc_train_wrong_clamps :
    percOutcome (.percTrain 0x0 true) 0 (percAll 31 (.replicate 12 31) 0x000#12) =
      some ([0b000#3], 31, .replicate 12 30, 0x001#12) := by decide
theorem test_perc_train_confident :
    percOutcome (.percTrain 0x0 false) 0 (percAll 0 #v[1, 2, 3, 4, 5, 6, 7, 8, 9, 10, 11, 12] 0x001#12) =
      some ([0b000#3], 0, #v[1, 2, 3, 4, 5, 6, 7, 8, 9, 10, 11, 12], 0x002#12) := by decide

/-! ## Assembly -/

/-- The `.config` line of 95 P2, with its comment, and a line that is none. -/
theorem test_assemble_config :
    assembleText ".config strategy=TOURNAMENT G=2 L=2 P=1   ; CFG".toList = some [.reset 0x0000420A#32 []] ∧
    assembleText "PREDICT 0x100000000".toList = none := by decide +kernel

/-! ## Witnesses: states that meet the hypotheses -/

theorem gMax_pos : 1 ≤ Config.gMax := Nat.le_add_left 1 _
theorem lMax_pos : 1 ≤ Config.lMax := Nat.le_add_left 1 _
theorem pMax_pos : 1 ≤ Config.pMax := Nat.le_add_left 1 _

/-- `G` = 1 is legal on every build (R9, R25). -/
theorem legal_gshare1 : cfgLegal 0x00000005#32 = true := by
  have h : cfgStrategy 0x00000005#32 = .gshare ∧ cfgG 0x00000005#32 = 1 := by decide
  simp [cfgLegal, cfgLegalFor, h.1, h.2, gMax_pos]

/-- `G` = `L` = `P` = 1 is legal on every build. -/
theorem legal_tourn1 : cfgLegal 0x00004106#32 = true := by
  have h : cfgStrategy 0x00004106#32 = .tournament ∧ cfgG 0x00004106#32 = 1 ∧ cfgL 0x00004106#32 = 1 ∧
      cfgP 0x00004106#32 = 1 := by decide
  simp [cfgLegal, cfgLegalFor, h.1, h.2.1, h.2.2.1, h.2.2.2, gMax_pos, lMax_pos, pMax_pos]

theorem legal_fixed : cfgLegal 0x00000000#32 = true ∧ cfgLegal 0x00000003#32 = true ∧
    cfgLegal 0x00100003#32 = true := ⟨rfl, rfl, rfl⟩

/-- Gshare with `G` = 0 is illegal on every build. -/
theorem illegal_gshare0 : cfgLegal 0x00000001#32 = false := by
  have h : cfgStrategy 0x00000001#32 = .gshare ∧ cfgG 0x00000001#32 = 0 := by decide
  simp [cfgLegal, cfgLegalFor, h.1, h.2]

/-- Histories and tables at their largest values for widths 1. Their `_inv` theorems are the witnesses
of StepAlwaysAnswers, RepeatedPredictsAgree, TrainDoesNotNeedThePredict and IndicesInRange. -/
def wGshare : State := engine 0x00000005#32 (.gshare ⟨1, [(1, 3)]⟩)
def wTourn : State := engine 0x00004106#32 (.tournament ⟨1, [(1, 3)], [(1, 0)], [(1, 1)], [(1, 3)]⟩)
def wStatic : State := engine 0x00000000#32 .static
def wPerc : State := percAll (-31) (.replicate 12 31) 0xFFF#12
def wInvalid : State := { engine 0x00000001#32 .absent with cfgErr := true }

theorem wGshare_inv : wGshare.Inv :=
  ⟨by show false = !cfgLegal 0x00000005#32; rw [legal_gshare1]; rfl, by rfl,
    by show (_ ∧ _); decide⟩
theorem wTourn_inv : wTourn.Inv :=
  ⟨by show false = !cfgLegal 0x00004106#32; rw [legal_tourn1]; rfl, by rfl,
    by show (_ ∧ _ ∧ _ ∧ _ ∧ _ ∧ _); decide⟩
theorem wStatic_inv : wStatic.Inv := ⟨rfl, rfl, trivial⟩
theorem wPerc_inv : wPerc.Inv := by
  refine ⟨rfl, rfl, ?_⟩
  intro r
  simp [weightIllegal]
theorem wInvalid_inv : wInvalid.Inv := ⟨by show true = !cfgLegal 0x00000001#32; rw [illegal_gshare0]; rfl, rfl, trivial⟩

/-- DotProductRange, RowWithMinus32Faults: a row in range, and one that holds -32. -/
theorem wPerc_readable (r : Fin 512) : RowReadable ⟨0xFFF#12, .replicate 512 (-31), .replicate 512 (.replicate 12 31)⟩ r := by
  simp [RowReadable]
theorem row_unreadable (r : Fin 512) : ¬RowReadable ⟨0, .replicate 512 0b100000#6, .replicate 512 (.replicate 12 0)⟩ r := by
  simp [RowReadable]

/-- EveryWordIsOneOfFour, RejectedCommandsAnswerTheirError, LegalCommandsNeverFail: a word for every
clause, at the edges of its range. -/
theorem witness_words :
    (0xFFFFFFFF00000001#64 &&& 0x00000000FFFFFFFF#64 = 1#64) ∧ (0x0000000000000006#64 &&& 0x00000000FFFFFFFB#64 = 2#64) ∧
    LegalWord 0x0000000400000001#64 ∧ LegalWord 0xFFFFFFFF00000006#64 ∧
    (0xFFFFFFFFFFFFFFFC#64).toNat % 4 = 0 ∧ (0xFFFFFFFFFFFFFFFF#64).toNat % 4 = 3 ∧
    ((0x0000000080000002#64).toNat % 4 = 2 ∧ (0x0000000080000002#64).toNat / 8 % 2 ^ 29 ≠ 0) ∧
    ((0x0000000400000005#64).toNat % 4 = 1 ∧ (0x0000000400000005#64).toNat / 4 % 2 = 1) := by
  refine ⟨by decide, by decide, .inl (by decide), .inr (by decide), ?_⟩
  decide

theorem witness_DecodeOfEncode : (Instr.gshareTrain 0xFFFFFFFF true).wf .gshare = true := by decide
theorem witness_EncodeOfDecode : decode .gshare 0xFFFFFFFF00000006#64 = .ok (.gshareTrain 0xFFFFFFFF true) := by decide

/-- ConfigurationLegality, ResetInitialisesSelectedStrategy (with the `legal_` theorems above). -/
theorem witness_strategies : cfgStrategy 0x00000000#32 = .static ∧ cfgStrategy 0x00000005#32 = .gshare ∧
    cfgStrategy 0x00004106#32 = .tournament ∧ cfgStrategy 0x00000003#32 = .perceptron ∧
    cfgPinit 0x00000003#32 = false ∧ cfgPinit 0x00100003#32 = true := by decide

/-- ResetInitialisesSelectedStrategy, ResetForgetsEverything: a reset move, and two different states that have one of the same configuration. -/
theorem witness_resets : ∃ s₁ s₂ t₁ t₂ : State, s₁.inputs = .reset 0x00000005#32 [] :: [] ∧
    s₂.inputs = .reset 0x00000005#32 [1#64] :: [] ∧ step s₁ = .next t₁ ∧ step s₂ = .next t₂ ∧ s₁.strat ≠ s₂.strat :=
  ⟨{ wStatic with inputs := [.reset 0x00000005#32 []] }, { wGshare with inputs := [.reset 0x00000005#32 [1#64]] },
    _, _, rfl, rfl, rfl, rfl, by decide⟩

theorem witness_StepKeepsInvariant : ∃ s t : State, s.Inv ∧ step s = .next t ∧ s ≠ t :=
  ⟨{ wGshare with inputs := [.command 0x0000000000000006#64] }, _,
    ⟨wGshare_inv.honest, wGshare_inv.selected, wGshare_inv.inRange⟩, rfl, by decide⟩
theorem witness_StepRunsDecodedCommand : wGshare.cfgErr = false ∧
    decode (cfgStrategy wGshare.cfg) (BitVec.ofNat 64 (6 % 2 ^ 64)) = .ok (.gshareTrain 0 true) := by decide
theorem witness_IdleEngineHoldsItsState : wGshare.inputs = [] := rfl

/-- A step out of `CFG_ERR` = 1; OnlyResetChangesConfiguration: it also changes the configuration. -/
theorem witness_CfgInvalidUntilLegalReset : ∃ s t : State, s.cfgErr = true ∧ step s = .next t ∧ t.cfgErr = false ∧
    t.cfg ≠ s.cfg :=
  ⟨{ wInvalid with inputs := [.reset 0x00000003#32 []] }, _, rfl, rfl, rfl, by decide⟩
theorem witness_OneResponsePerCommand : ∃ s : State, s.Inv ∧ s.inputs = [.command 0x0000000400000001#64] ∧
    (0b001#3).getLsbD 0 = true :=
  ⟨{ wStatic with inputs := [.command 0x0000000400000001#64] },
    ⟨wStatic_inv.honest, wStatic_inv.selected, wStatic_inv.inRange⟩, rfl, by decide⟩
/-- A TRAIN that changes the strategy state, and a PREDICT that answers (CommandsKeepConfiguration
too). -/
theorem witness_PredictChangesNoState : ∃ s t u : State, s.inputs = [.command 0x0000000000000002#64] ∧
    step s = .next t ∧ t.strat ≠ s.strat ∧ exec (.gsharePredict 0) s = .next u :=
  ⟨{ wGshare with inputs := [.command 0x0000000000000002#64] }, _, _, rfl, rfl, by decide, rfl⟩
theorem witness_OtherStrategyRefused : wGshare.cfgErr = false ∧
    wGshare.strat.kind ≠ some (Instr.percPredict 0).strategy := by decide
theorem witness_InstancesAreIndependent : ∃ es fs gs : List State, stepAt es 0 = .next fs ∧ stepAt es 1 = .next gs ∧
    (0 : Nat) ≠ 1 ∧ es.length = 2 :=
  ⟨[{ wGshare with inputs := [.command 6#64] }, wStatic], _, _, rfl, rfl, by decide, rfl⟩

/-- Two engines with one configuration, each with its own source, and a step of the second. -/
theorem witness_EnginesKeepTheirOwnDraws : (startEngines [0x00000000#32, 0x00000000#32]).length = 2 ∧
    OwnSources (startEngines [0x00000000#32, 0x00000000#32]) ∧
    stepAt (startEngines [0x00000000#32, 0x00000000#32]) 1 = .next (startEngines [0x00000000#32, 0x00000000#32]) :=
  ⟨rfl, by unfold OwnSources; decide, rfl⟩

/-- HistoryShift, HistoryHoldsRecentOutcomes: histories at the edges, the full width of the storage, and a bit on either side of the outcomes
given. -/
theorem witness_histories : (32 ≤ 32 ∧ (0xFFFFFFFF#32).toNat < 2 ^ 32) ∧ (2 ≤ 12 ∧ (3#12).toNat < 2 ^ 2) ∧
    ([true] : List Dir) ≠ [] ∧ 0 < 2 ∧ (1 < 2 ∧ ¬1 < [true].length) := by decide

/-- SignMapAndClamp, DotProductRange, WeightsMoveOneStep: rows of zeros, and rows at the clamp. -/
theorem witness_rows : (0#6).toInt = 0 ∧ (31#6).toInt ≠ -32 ∧ |(31#6).toInt| = 31 ∧ (-31 : Int) ≤ 31 := by decide

/-- The states of a Gshare engine with `G` = 1 under `TRAIN 0, T` and `TRAIN 1, T` (95 L1-3). -/
def riseState (k : Nat) : GshareState :=
  match k with
  | 0 => ⟨0, []⟩
  | 1 => ⟨1, [(0, 2)]⟩
  | _ => ⟨1, [(0, 3)]⟩
def riseRun (k : Nat) : State :=
  { engine 0x00000005#32 (.gshare (riseState k)) with responses := List.replicate k 0b000#3 }

/-- Two runs of GSHARE.TRAIN on one entry: `G` = 1, `TRAIN 0, T` and then `TRAIN 1, T` (95 L1-3). -/
theorem witness_GshareCounterRises : ∃ (f : Nat → State) (gs : Nat → GshareState) (pcs : Nat → Pc),
    (f 0).cfgErr = false ∧ (∀ k, k ≤ 2 → (f k).strat = .gshare (gs k)) ∧
    (∀ k, k < 2 → exec (.gshareTrain (pcs k) true) (f k) = .next (f (k + 1)) ∧
      ((pcs k).toNat % 2 ^ cfgG (f 0).cfg) ^^^ (gs k).ghr.toNat = 0) ∧ readPht (gs 0).pht 0 = ctrWN := by
  refine ⟨riseRun, riseState, fun k => if k = 0 then 0 else 1, rfl, fun k _ => rfl, fun k hk => ?_, rfl⟩
  match k, hk with
  | 0, _ => exact ⟨rfl, by decide⟩
  | 1, _ => exact ⟨rfl, by decide⟩

/-- The statements of the commands' results: engines they are about, with widths at most 32. -/
theorem witness_results : (wStatic.cfgErr = false ∧ wStatic.strat = .static) ∧
    (wGshare.cfgErr = false ∧ wGshare.strat = .gshare ⟨1, [(1, 3)]⟩ ∧ cfgG wGshare.cfg ≤ 32) ∧
    (wTourn.cfgErr = false ∧ wTourn.strat = .tournament ⟨1, [(1, 3)], [(1, 0)], [(1, 1)], [(1, 3)]⟩ ∧
      cfgG wTourn.cfg ≤ 32 ∧ cfgL wTourn.cfg ≤ 32) := by decide
theorem witness_percResults : wPerc.cfgErr = false ∧
    wPerc.strat = .perceptron ⟨0xFFF#12, .replicate 512 (-31), .replicate 512 (.replicate 12 31)⟩ ∧
    (511 : Fin 512).val = (0xFFFFFFFF#32 : Pc).toNat % 512 ∧
    RowReadable ⟨0xFFF#12, .replicate 512 (-31), .replicate 512 (.replicate 12 31)⟩ (percRow 0xFFFFFFFF#32) :=
  ⟨rfl, rfl, rfl, wPerc_readable _⟩

/-- A TOURN.TRAIN whose two predictions agree (both counters are ST). -/
theorem witness_ChoiceUnchangedOnAgreement : ∃ t y, exec (.tournTrain 1#32 true) wTourn = .next t ∧
    t.strat = .tournament y ∧ 2 ≤ (readPht [(1, 3)] 1).toNat ∧
    2 ≤ (readLpt [(1, 3)] (readLht [(1, 1)] (1 % 2 ^ cfgP wTourn.cfg)).toNat).toNat :=
  ⟨_, _, rfl, rfl, by decide, by decide⟩

/-- The rows of `wPerc` under its history of ones: -31 + 12 * 31 = 341, far past the threshold. -/
theorem witness_ConfidentRowStopsChanging : ∃ t q, exec (.percTrain 0#32 true) wPerc = .next t ∧
    t.strat = .perceptron q ∧
    rowSum ⟨0xFFF#12, .replicate 512 (-31), .replicate 512 (.replicate 12 31)⟩ (percRow 0#32) 0xFFF#12 = 341 ∧
    38 ≤ |(341 : Int)| ∧ decide (0 ≤ (341 : Int)) = true := by
  refine ⟨_, _, rfl, rfl, ?_, by decide, rfl⟩
  simp [rowSum, Fin.sum_univ_succ]

/-- The other direction: -341 under a history of zeros and outcome NotTaken (31 - 12 * 31). -/
theorem witness_ConfidentRowStopsChanging_notTaken :
    rowSum ⟨0x000#12, .replicate 512 31, .replicate 512 (.replicate 12 31)⟩ (percRow 0#32) 0x000#12 = -341 ∧
    38 ≤ |(-341 : Int)| ∧ decide (0 ≤ (-341 : Int)) = false := by
  refine ⟨?_, by decide, rfl⟩
  simp [rowSum]

theorem witness_RowWithMinus32Faults : ∃ (s : State) (p : PerceptronState), s.cfgErr = false ∧ s.strat = .perceptron p ∧
    ¬RowReadable p (percRow 0#32) :=
  ⟨percAll 0b100000#6 (.replicate 12 0) 0, _, rfl, rfl, row_unreadable _⟩

theorem witness_FirstPredictionAfterReset : cfgLegal 0x00000003#32 = true ∧ cfgLegal 0x00000005#32 = true ∧
    cfgLegal 0x00004106#32 = true ∧ cfgPinit 0x00000003#32 = false :=
  ⟨legal_fixed.2.1, legal_gshare1, legal_tourn1, rfl⟩

theorem witness_ZeroWeightsPredictTaken : ∃ (s : State) (p : PerceptronState), s.cfgErr = false ∧ s.strat = .perceptron p ∧
    ∀ r : Fin 512, p.pbias[r].toInt = 0 ∧ ∀ i : Fin 12, p.pw[r][i].toInt = 0 :=
  ⟨percAll 0 (.replicate 12 0) 0xFFF#12, _, rfl, rfl, by intro r; simp⟩

theorem witness_OnlyIndexBitsOfPcMatter : (0x4#32).toNat % 2 ^ cfgG wGshare.cfg = (0x8#32).toNat % 2 ^ cfgG wGshare.cfg ∧
    (0x3#32).toNat % 2 ^ cfgP wTourn.cfg = (0xFFFFFFFF#32).toNat % 2 ^ cfgP wTourn.cfg ∧
    (5#32).toNat % 512 = (517#32).toNat % 512 := by decide

/-- Two engines that differ in an entry the command does not read. -/
theorem witness_PredictReadsOnlyItsEntries : ∃ (s u : State) (g g' : GshareState), s.cfg = u.cfg ∧ s.cfgErr = false ∧ u.cfgErr = false ∧
    s.strat = .gshare g ∧ u.strat = .gshare g' ∧ g.ghr = g'.ghr ∧ g ≠ g' ∧
    readPht g.pht ((0#32).toNat % 2 ^ cfgG s.cfg ^^^ g.ghr.toNat) =
      readPht g'.pht ((0#32).toNat % 2 ^ cfgG s.cfg ^^^ g.ghr.toNat) :=
  ⟨wGshare, engine 0x00000005#32 (.gshare ⟨1, [(0, 3), (1, 3)]⟩), _, _, rfl, rfl, rfl, rfl, rfl, rfl, by decide, rfl⟩
theorem witness_PredictReadsOnlyItsEntries_tournament : ∃ x x' : TournamentState,
    wTourn.strat = .tournament x ∧ x ≠ x' ∧ x.ghr = x'.ghr ∧ readPht x.pht 1 = readPht x'.pht 1 ∧
    readCt x.ct 1 = readCt x'.ct 1 ∧ readLht x.lht 1 = readLht x'.lht 1 ∧ readLpt x.lpt 1 = readLpt x'.lpt 1 ∧
    x.ghr.toNat = 1 ∧ (1#32).toNat % 2 ^ cfgP wTourn.cfg = 1 ∧ (readLht x.lht 1).toNat = 1 :=
  ⟨_, ⟨1, [(0, 3), (1, 3)], [(1, 0)], [(1, 1)], [(1, 3)]⟩, rfl, by decide, rfl, rfl, rfl, rfl, rfl, rfl, rfl, rfl⟩
theorem witness_PredictReadsOnlyItsEntries_perceptron : ∃ p p' : PerceptronState,
    wPerc.strat = .perceptron p ∧ RowReadable p (percRow 0#32) ∧ p.ghr = p'.ghr ∧
    p.pbias[percRow 0#32] = p'.pbias[percRow 0#32] ∧ p.pw[percRow 0#32] = p'.pw[percRow 0#32] :=
  ⟨_, ⟨0xFFF#12, (Vector.replicate 512 (-31)).set 1 0, .replicate 512 (.replicate 12 31)⟩, rfl, wPerc_readable _, rfl,
    rfl, rfl⟩

end Sys2Proof.Tests
end

section
/-! PROOF. Which configurations are legal (R9, R25): the range of the open maxima, and the legality of a
configuration strategy by strategy. -/

namespace Sys2Proof

/-- R9: a maximum that is held as its predecessor in `Fin 32` is a width in 1..32. -/
theorem fin32_succ_range (m : Fin 32) : 1 ≤ m.val + 1 ∧ m.val + 1 ≤ 32 := ⟨Nat.le_add_left 1 _, m.isLt⟩

theorem Config.gMax_range : 1 ≤ Config.gMax ∧ Config.gMax ≤ 32 := fin32_succ_range Config.gMaxPred

theorem Config.lMax_range : 1 ≤ Config.lMax ∧ Config.lMax ≤ 32 := fin32_succ_range Config.lMaxPred

theorem Config.pMax_range : 1 ≤ Config.pMax ∧ Config.pMax ≤ 32 := fin32_succ_range Config.pMaxPred

section
variable {c : CfgWord}

theorem cfgLegal_of_static (h : cfgStrategy c = .static) : cfgLegal c = true := by
  simp only [cfgLegal, cfgLegalFor, h]

theorem cfgLegal_iff_of_gshare (h : cfgStrategy c = .gshare) :
    cfgLegal c = true ↔ 1 ≤ cfgG c ∧ cfgG c ≤ Config.gMax := by
  simp only [cfgLegal, cfgLegalFor, h, decide_eq_true_eq]

theorem cfgLegal_iff_of_tournament (h : cfgStrategy c = .tournament) :
    cfgLegal c = true ↔ 1 ≤ cfgG c ∧ cfgG c ≤ Config.gMax ∧ 1 ≤ cfgL c ∧ cfgL c ≤ Config.lMax ∧
      1 ≤ cfgP c ∧ cfgP c ≤ Config.pMax := by
  simp only [cfgLegal, cfgLegalFor, h, decide_eq_true_eq, and_assoc]

theorem cfgLegal_of_perceptron (h : cfgStrategy c = .perceptron) : cfgLegal c = true := by
  simp only [cfgLegal, cfgLegalFor, h]

end

/-- Settles O7: the maxima by their ranges, legality by one lemma per strategy. -/
theorem configurationLegality : Obligations.ConfigurationLegality :=
  ⟨Config.gMax_range, Config.lMax_range, Config.pMax_range, fun _ =>
    ⟨cfgLegal_of_static, cfgLegal_iff_of_gshare, cfgLegal_iff_of_tournament, cfgLegal_of_perceptron⟩⟩

end Sys2Proof
end

section
/-! PROOF. The fields of the configuration word as numbers (R24, R82). -/

namespace Sys2Proof

theorem extractLsb'_toNat_eq_div_mod (c : CfgWord) (k n : Nat) :
    (c.extractLsb' k n).toNat = c.toNat / 2 ^ k % 2 ^ n := by
  rw [BitVec.extractLsb'_toNat, Nat.shiftRight_eq_div_pow]

/-- Field `STRATEGY` is the strategy's number (R24). -/
theorem strategyCode_cfgStrategy (c : CfgWord) : strategyCode (cfgStrategy c) = c.extractLsb' 0 2 := by
  have h₀ : (c.extractLsb' 0 2).getLsbD 0 = c.getLsbD 0 := by simp
  have h₁ : (c.extractLsb' 0 2).getLsbD 1 = c.getLsbD 1 := by simp
  rw [cfgStrategy, ← h₀, ← h₁]
  generalize c.extractLsb' 0 2 = v
  revert v; decide

theorem strategyCode_injective : Function.Injective strategyCode := by
  intro a b; cases a <;> cases b <;> decide

theorem cfgStrategy_eq_iff (c : CfgWord) (st : Strategy) :
    cfgStrategy c = st ↔ c.toNat % 4 = (strategyCode st).toNat := by
  rw [← strategyCode_injective.eq_iff, strategyCode_cfgStrategy, ← BitVec.toNat_inj,
    extractLsb'_toNat_eq_div_mod, pow_zero, Nat.div_one]
  rfl

theorem cfgPinit_eq_true_iff (c : CfgWord) : cfgPinit c = true ↔ c.toNat / 2 ^ 20 % 2 = 1 := by
  rw [cfgPinit, BitVec.getLsbD, Nat.testBit_eq_decide_div_mod_eq, decide_eq_true_eq]

/-- Settles O6: each field as a quotient and remainder of the word, the worked words by evaluation. -/
theorem configurationFields : Obligations.ConfigurationFields :=
  ⟨fun c => ⟨cfgStrategy_eq_iff c .static, cfgStrategy_eq_iff c .gshare, cfgStrategy_eq_iff c .tournament,
    cfgStrategy_eq_iff c .perceptron, extractLsb'_toNat_eq_div_mod c 2 6, extractLsb'_toNat_eq_div_mod c 8 6,
    extractLsb'_toNat_eq_div_mod c 14 6, cfgPinit_eq_true_iff c⟩, by decide⟩

end Sys2Proof
end

section
/-! PROOF. Perceptron rows: which can be read, and what keeps every value off the pattern of -32 (R34, R36). -/

namespace Sys2Proof.Machine

theorem weightIllegal_eq_false_iff (w : Weight) : weightIllegal w = false ↔ w.toInt ≠ -32 := by
  rw [← Bool.not_eq_true, weightIllegal_iff]

/-- A readable row, in the terms of the invariant. -/
theorem rowReadable_iff {p : PerceptronState} {r : Fin 512} :
    RowReadable p r ↔ weightIllegal p.pbias[r] = false ∧ ∀ i : Fin 12, weightIllegal p.pw[r][i] = false := by
  simp only [RowReadable, weightIllegal_eq_false_iff]

theorem PerceptronState.inRange_iff {p : PerceptronState} : p.InRange ↔ ∀ r, RowReadable p r := by
  simp only [PerceptronState.InRange, rowReadable_iff]

theorem readRow_eq_none_iff_not_rowReadable {p : PerceptronState} {r : Fin 512} :
    readRow p r = none ↔ ¬RowReadable p r := by
  rw [readRow_eq_none, rowReadable_iff]
  simp only [not_and_or, not_forall, Bool.not_eq_false]

section
variable {s : State} {p : PerceptronState} {pc : Pc}

theorem exec_percPredict_fault (he : s.cfgErr = false) (hs : s.strat = .perceptron p)
    (hr : readRow p (percRow pc) = none) : exec (.percPredict pc) s = .fault .weightMinus32 := by
  refine (onSelected_some _ he (perceptron?_eq_some.2 hs)).trans ?_
  simp only [hr]

theorem exec_percTrain_fault (o : Dir) (he : s.cfgErr = false) (hs : s.strat = .perceptron p)
    (hr : readRow p (percRow pc) = none) : exec (.percTrain pc o) s = .fault .weightMinus32 := by
  refine (onSelected_some _ he (perceptron?_eq_some.2 hs)).trans ?_
  simp only [hr]

end

/-- In a state that meets the invariant every Perceptron row can be read (R36). -/
theorem State.Inv.rowReadable {s : State} {p : PerceptronState} (hs : s.Inv) (hp : s.strat = .perceptron p)
    (r : Fin 512) : RowReadable p r := by
  have hr := hs.inRange
  rw [hp] at hr
  exact PerceptronState.inRange_iff.1 hr r

/-- Settles O50: an unreadable row is the one case in which both commands read nothing, and the invariant
excludes it. -/
theorem rowWithMinus32Faults : Obligations.RowWithMinus32Faults := by
  refine ⟨fun s p pc o he hs hrow => ?_, fun s p r hs hp => hs.rowReadable hp r⟩
  have hr := readRow_eq_none_iff_not_rowReadable.2 hrow
  exact ⟨exec_percPredict_fault he hs hr, exec_percTrain_fault o he hs hr⟩

end Sys2Proof.Machine
end

section
/-! PROOF. What a command can do (R22, R23, R27): it answers, and a TRAIN also replaces its strategy's state. -/

namespace Sys2Proof.Machine

/-- The TRAINs that write: the strategy state before and after the command, under configuration `c`
(R161, R175, R192). Static's TRAIN is not among them (R151). -/
inductive TrainStep (c : CfgWord) : Instr → Strat → Strat → Prop where
  | gshare (g : GshareState) (pc : Pc) (o : Dir) :
      TrainStep c (.gshareTrain pc o) (.gshare g) (.gshare (gshareTrained (cfgG c) g pc o))
  | tournament (x : TournamentState) (pc : Pc) (o : Dir) :
      TrainStep c (.tournTrain pc o) (.tournament x)
        (.tournament (tournTrained (cfgG c) (cfgL c) (cfgP c) x pc o))
  | perceptron (p : PerceptronState) (pc : Pc) (o : Dir) {b : Weight} {ws : Vector Weight 12}
      (hr : readRow p (percRow pc) = some (b, ws)) :
      TrainStep c (.percTrain pc o) (.perceptron p) (.perceptron (percTrained p (percRow pc) b ws o))

/-- `onSelected_next` for a command that answers on every state of its strategy. -/
theorem onSelected_answering_next {α : Type} {s t : State} {pick : Strat → Option α} {k : α → State}
    (h : onSelected s pick (fun x => .next (k x)) = .next t) :
    (s.cfgErr = true ∧ t = s.respond .cfgInvalid false) ∨
    (∃ x, s.cfgErr = false ∧ pick s.strat = some x ∧ t = k x) :=
  (onSelected_next h).imp_right fun ⟨x, he, hx, hk⟩ => ⟨x, he, hx, (Host.Outcome.next.inj hk).symm⟩

/-- All that a command which answers can do: answer CFG_INVALID, answer OK and keep the strategy state,
or train it. -/
theorem exec_next {i : Instr} {s t : State} (h : exec i s = .next t) :
    (s.cfgErr = true ∧ t = s.respond .cfgInvalid false) ∨
    (∃ p, s.cfgErr = false ∧ (i.isPredict = false → p = false) ∧ t = s.respond .ok p) ∨
    (∃ x, s.cfgErr = false ∧ TrainStep s.cfg i s.strat x ∧ t = (s.setStrat x).respond .ok false) := by
  cases i with
  | staticPredict pc =>
    exact (onSelected_answering_next h).imp_right fun ⟨_, he, _, ht⟩ => .inl ⟨true, he, nofun, ht⟩
  | staticTrain pc o =>
    exact (onSelected_answering_next h).imp_right fun ⟨_, he, _, ht⟩ => .inl ⟨false, he, fun _ => rfl, ht⟩
  | gsharePredict pc =>
    exact (onSelected_answering_next h).imp_right fun ⟨_, he, _, ht⟩ => .inl ⟨_, he, nofun, ht⟩
  | tournPredict pc =>
    exact (onSelected_answering_next h).imp_right fun ⟨_, he, _, ht⟩ => .inl ⟨_, he, nofun, ht⟩
  | gshareTrain pc o =>
    refine (onSelected_answering_next h).imp_right fun ⟨g, he, hg, ht⟩ => .inr ⟨_, he, ?_, ht⟩
    rw [gshare?_eq_some.1 hg]
    exact .gshare g pc o
  | tournTrain pc o =>
    refine (onSelected_answering_next h).imp_right fun ⟨x, he, hx, ht⟩ => .inr ⟨_, he, ?_, ht⟩
    rw [tournament?_eq_some.1 hx]
    exact .tournament x pc o
  | percPredict pc =>
    refine (onSelected_next h).imp_right fun ⟨p, he, _, hk⟩ => .inl ?_
    cases hr : readRow p (percRow pc) with
    | none => simp only [hr, reduceCtorEq] at hk
    | some row =>
      simp only [hr] at hk
      exact ⟨_, he, nofun, (Host.Outcome.next.inj hk).symm⟩
  | percTrain pc o =>
    refine (onSelected_next h).imp_right fun ⟨p, he, hp, hk⟩ => .inr ?_
    cases hr : readRow p (percRow pc) with
    | none => simp only [hr, reduceCtorEq] at hk
    | some row =>
      simp only [hr] at hk
      rw [perceptron?_eq_some.1 hp]
      exact ⟨_, he, .perceptron p pc o hr, (Host.Outcome.next.inj hk).symm⟩

theorem TrainStep.kind_eq {c : CfgWord} {i : Instr} {x y : Strat} (h : TrainStep c i x y) : y.kind = x.kind := by
  cases h <;> rfl

/-- Settles O23: a response touches only the responses, and training keeps the kind of strategy state. -/
theorem commandsKeepConfiguration : Obligations.CommandsKeepConfiguration := by
  intro i s t h
  rcases exec_next h with ⟨-, rfl⟩ | ⟨p, -, -, rfl⟩ | ⟨x, -, hx, rfl⟩
  · exact ⟨rfl, rfl, rfl, rfl, rfl, rfl⟩
  · exact ⟨rfl, rfl, rfl, rfl, rfl, rfl⟩
  · exact ⟨rfl, rfl, hx.kind_eq, rfl, rfl, rfl⟩

/-- A step takes a reset, or keeps CFG, CFG_ERR, the kind of strategy state and the reset count (R23, R241). -/
theorem step_reset_or_keeps {s t : State} (h : step s = .next t) :
    (∃ c lost rest, s.inputs = .reset c lost :: rest ∧ t = resetWith c s.source s.resets rest) ∨
    (t.cfg = s.cfg ∧ t.cfgErr = s.cfgErr ∧ t.strat.kind = s.strat.kind ∧ t.resets = s.resets) := by
  rcases step_cases s with ⟨-, hs⟩ | ⟨c, lost, rest, hi, hs⟩ | ⟨_, _, -, -, hs⟩ | ⟨_, _, _, -, -, -, hs⟩ |
    ⟨_, _, _, -, -, -, hs⟩ <;> rw [hs] at h
  · cases h; exact .inr ⟨rfl, rfl, rfl, rfl⟩
  · cases h; exact .inl ⟨c, lost, rest, hi, rfl⟩
  · cases h; exact .inr ⟨rfl, rfl, rfl, rfl⟩
  · cases h; exact .inr ⟨rfl, rfl, rfl, rfl⟩
  · obtain ⟨hcfg, herr, hkind, -, hresets, -⟩ := commandsKeepConfiguration _ _ _ h
    exact .inr ⟨hcfg, herr, hkind, hresets⟩

/-- Settles O24: a step that takes no reset keeps all four. -/
theorem onlyResetChangesConfiguration : Obligations.OnlyResetChangesConfiguration := by
  intro s t h hchange
  rcases step_reset_or_keeps h with ⟨c, lost, rest, hi, rfl⟩ | ⟨hcfg, herr, hkind, hresets⟩
  · exact ⟨c, lost, rest, hi, rfl⟩
  · simp [hcfg, herr, hkind, hresets] at hchange

end Sys2Proof.Machine
end

section
/-! PROOF. What a reset leaves (R40 to R46), and that it meets the invariant. -/

namespace Sys2Proof.Machine

theorem step_of_reset {s : State} {c : CfgWord} {lost : List CmdWord} {rest : List HostInput}
    (h : s.inputs = .reset c lost :: rest) : step s = .next (resetWith c s.source s.resets rest) := by
  simp only [step, accept, h]

section
variable {c : CfgWord} (d n : Nat)

theorem resetStrat_of_illegal (hc : cfgLegal c = false) : resetStrat c d n = .absent := by
  simp [resetStrat, hc]

theorem resetStrat_of_static (hc : cfgLegal c = true) (hst : cfgStrategy c = .static) :
    resetStrat c d n = .static := by simp [resetStrat, hc, hst]

theorem resetStrat_of_gshare (hc : cfgLegal c = true) (hst : cfgStrategy c = .gshare) :
    resetStrat c d n = .gshare ⟨0#32, []⟩ := by simp [resetStrat, hc, hst]

theorem resetStrat_of_tournament (hc : cfgLegal c = true) (hst : cfgStrategy c = .tournament) :
    resetStrat c d n = .tournament ⟨0#32, [], [], [], []⟩ := by simp [resetStrat, hc, hst]

theorem resetStrat_of_perceptron (hc : cfgLegal c = true) (hst : cfgStrategy c = .perceptron) :
    resetStrat c d n = .perceptron (resetPerceptron (cfgPinit c) d n) := by simp [resetStrat, hc, hst]

end

theorem seedWeight_toInt (x : Fin 3) : (seedWeight x).toInt = (x.val : Int) - 1 := by
  revert x; decide

theorem fin3_val_sub_one_mem (x : Fin 3) : (x.val : Int) - 1 ∈ ([-1, 0, 1] : List Int) := by
  revert x; decide

section
variable (b : Bool) (d n : Nat) (r : Fin 512) (i : Fin 12)

theorem resetPerceptron_ghr : (resetPerceptron b d n).ghr = 0#12 := by
  cases b <;> rfl

theorem resetPerceptron_zero_pbias_toInt : (resetPerceptron false d n).pbias[r].toInt = 0 := by
  simp [resetPerceptron]

theorem resetPerceptron_zero_pw_toInt : (resetPerceptron false d n).pw[r][i].toInt = 0 := by
  simp [resetPerceptron]

theorem resetPerceptron_seeded_pbias_toInt :
    (resetPerceptron true d n).pbias[r].toInt = ((Config.percSeed d n r 0).val : Int) - 1 := by
  simp [resetPerceptron, seedWeight_toInt]

theorem resetPerceptron_seeded_pw_toInt :
    (resetPerceptron true d n).pw[r][i].toInt = ((Config.percSeed d n r (i.val + 1)).val : Int) - 1 := by
  simp [resetPerceptron, seedWeight_toInt]

end

/-- Settles O9: the step is `resetWith`, whose strategy state is known strategy by strategy. -/
theorem resetInitialisesSelectedStrategy : Obligations.ResetInitialisesSelectedStrategy := by
  intro s c lost rest hi
  refine ⟨_, step_of_reset hi, rfl, by simp, rfl, rfl, rfl, resetStrat_of_illegal _ _, resetStrat_of_static _ _,
    fun hc hst => ⟨_, resetStrat_of_gshare _ _ hc hst, rfl, fun _ => rfl⟩,
    fun hc hst => ⟨_, resetStrat_of_tournament _ _ hc hst, rfl, fun _ => rfl, fun _ => rfl, fun _ => rfl,
      fun _ => rfl⟩,
    fun hc hst => ⟨_, resetStrat_of_perceptron _ _ hc hst, resetPerceptron_ghr _ _ _, fun hz r => ?_,
      fun hseed r => ?_⟩⟩
  · rw [hz]
    exact ⟨resetPerceptron_zero_pbias_toInt _ _ r, resetPerceptron_zero_pw_toInt _ _ r⟩
  · rw [hseed, resetPerceptron_seeded_pbias_toInt]
    refine ⟨rfl, fin3_val_sub_one_mem _, fun i => ?_⟩
    rw [resetPerceptron_seeded_pw_toInt]
    exact ⟨rfl, fin3_val_sub_one_mem _⟩

/-- A reset leaves no bias and no weight at -32, whatever the draw (R36, R45). -/
theorem resetPerceptron_inRange (b : Bool) (d n : Nat) : (resetPerceptron b d n).InRange := by
  refine PerceptronState.inRange_iff.2 fun r => ?_
  cases b with
  | false =>
    refine ⟨?_, fun i => ?_⟩
    · rw [resetPerceptron_zero_pbias_toInt]; decide
    · rw [resetPerceptron_zero_pw_toInt]; decide
  | true =>
    refine ⟨?_, fun i => ?_⟩
    · rw [resetPerceptron_seeded_pbias_toInt]; omega
    · rw [resetPerceptron_seeded_pw_toInt]; omega

theorem resetStrat_kind (c : CfgWord) (d n : Nat) :
    (resetStrat c d n).kind = if cfgLegal c then some (cfgStrategy c) else none := by
  cases hc : cfgLegal c with
  | false => simp [resetStrat_of_illegal, hc, Strat.kind]
  | true => cases hst : cfgStrategy c <;> simp [resetStrat, hc, hst, Strat.kind]

theorem resetStrat_inRange (c : CfgWord) (d n g l p : Nat) : (resetStrat c d n).InRange g l p := by
  cases hc : cfgLegal c with
  | false => rw [resetStrat_of_illegal d n hc]; trivial
  | true =>
    cases hst : cfgStrategy c with
    | static => rw [resetStrat_of_static d n hc hst]; trivial
    | gshare =>
      rw [resetStrat_of_gshare d n hc hst]
      exact ⟨Nat.two_pow_pos g, Table.wf_nil _ _⟩
    | tournament =>
      rw [resetStrat_of_tournament d n hc hst]
      exact ⟨Nat.two_pow_pos g, Table.wf_nil _ _, Table.wf_nil _ _, Table.wf_nil _ _, nofun, Table.wf_nil _ _⟩
    | perceptron =>
      rw [resetStrat_of_perceptron d n hc hst]
      exact resetPerceptron_inRange _ _ _

theorem resetWith_inv (c : CfgWord) (d n : Nat) (rest : List HostInput) : (resetWith c d n rest).Inv := by
  refine ⟨rfl, ?_, resetStrat_inRange c d n _ _ _⟩
  simp only [State.SelectedOnly, resetWith_strat, resetWith_cfgErr, resetWith_cfg, resetStrat_kind]
  by_cases hc : cfgLegal c = true <;> simp [hc]

/-- Settles O12: the status bit by definition, the strategy state by its kind and its ranges. -/
theorem everyResetSatisfiesInvariant : Obligations.EveryResetSatisfiesInvariant := resetWith_inv

end Sys2Proof.Machine
end

section
/-! PROOF. Every step keeps the invariant: training keeps the ranges strategy by strategy, and everything
else a step does is a reset or leaves the strategy state alone. -/

namespace Sys2Proof.Machine

/-! ## Training keeps the ranges -/

theorem gsIdx_lt {g : Nat} {ghr : Hist} (pc : Pc) (h : ghr.toNat < 2 ^ g) : gsIdx g pc ghr < 2 ^ g := by
  rw [gsIdx_eq]
  exact Nat.xor_lt_two_pow (Nat.mod_lt _ (Nat.two_pow_pos g)) h

theorem gshareTrained_inRange {g l p : Nat} {x : GshareState} (pc : Pc) (o : Dir)
    (h : (Strat.gshare x).InRange g l p) : (Strat.gshare (gshareTrained g x pc o)).InRange g l p := by
  obtain ⟨hghr, hpht⟩ := h
  exact ⟨shiftIn_toNat_lt _ _ _, tableWrite_wf _ hpht (gsIdx_lt pc hghr)⟩

theorem tournTrained_inRange {g l p : Nat} {x : TournamentState} (pc : Pc) (o : Dir)
    (h : (Strat.tournament x).InRange g l p) :
    (Strat.tournament (tournTrained g l p x pc o)).InRange g l p := by
  obtain ⟨hghr, hpht, hct, hlht, hfits, hlpt⟩ := h
  exact ⟨shiftIn_toNat_lt _ _ _, tableWrite_wf _ hpht hghr, tableWrite_wf _ hct hghr,
    tableWrite_wf _ hlht (lslot_lt p pc), writeLht_fits hfits _ (shiftIn_toNat_lt _ _ _),
    tableWrite_wf _ hlpt (readLht_lt hfits _)⟩

/-- A stepped weight is never -32: the clamp stops at -31 (R36, R110). -/
theorem stepWeight_legal (w : Weight) (d : Int) : weightIllegal (stepWeight w d) = false := by
  rw [weightIllegal_eq_false_iff, stepWeight_toInt]
  have := (clamp_bounds (w.toInt + d)).1
  omega

theorem writeRow_inRange {p : PerceptronState} {b : Weight} {ws : Vector Weight 12} (r : Fin 512) (hp : p.InRange)
    (hb : weightIllegal b = false) (hws : ∀ i : Fin 12, weightIllegal ws[i] = false) :
    (writeRow p r b ws).InRange := by
  intro q
  rw [writeRow_pbias, writeRow_pw]
  by_cases hq : q = r
  · simp only [hq, ↓reduceIte]
    exact ⟨hb, hws⟩
  · simp only [hq, ↓reduceIte]
    exact hp q

theorem percTrained_inRange {p : PerceptronState} (r : Fin 512) (b : Weight) (ws : Vector Weight 12) (o : Dir)
    (hp : p.InRange) : (percTrained p r b ws o).InRange := by
  have hrow : (writeRow p r (trainBias b o) (trainWeights ws p.ghr o)).InRange :=
    writeRow_inRange r hp (stepWeight_legal _ _) fun i => by
      rw [Fin.getElem_fin, trainWeights_getElem]
      exact stepWeight_legal _ _
  have hq : (if percTrainEn (percSum b ws p.ghr) o then
      writeRow p r (trainBias b o) (trainWeights ws p.ghr o) else p).InRange := by
    split
    · exact hrow
    · exact hp
  exact hq

theorem TrainStep.inRange {c : CfgWord} {i : Instr} {x y : Strat} (h : TrainStep c i x y)
    (hx : x.InRange (cfgG c) (cfgL c) (cfgP c)) : y.InRange (cfgG c) (cfgL c) (cfgP c) := by
  cases h with
  | gshare g pc o => exact gshareTrained_inRange pc o hx
  | tournament t pc o => exact tournTrained_inRange pc o hx
  | perceptron p pc o hr => exact percTrained_inRange _ _ _ o hx

/-! ## The invariant -/

namespace State.Inv
variable {s : State} (hs : s.Inv)
include hs

/-- The invariant does not speak of the host's moves. -/
theorem with_inputs (rest : List HostInput) : State.Inv { s with inputs := rest } :=
  ⟨hs.honest, hs.selected, hs.inRange⟩

theorem respond (e : Err) (p : Dir) : (s.respond e p).Inv := ⟨hs.honest, hs.selected, hs.inRange⟩

/-- A strategy state of the same kind and in range can take the place of the one held. -/
theorem setStrat {x : Strat} (hk : x.kind = s.strat.kind)
    (hx : x.InRange (cfgG s.cfg) (cfgL s.cfg) (cfgP s.cfg)) : (s.setStrat x).Inv :=
  ⟨hs.honest, hk.trans hs.selected, hx⟩

theorem exec {t : State} {i : Instr} (h : Machine.exec i s = .next t) : t.Inv := by
  rcases exec_next h with ⟨-, rfl⟩ | ⟨p, -, -, rfl⟩ | ⟨x, -, hx, rfl⟩
  · exact hs.respond _ _
  · exact hs.respond _ _
  · exact (hs.setStrat hx.kind_eq (hx.inRange hs.inRange)).respond _ _

end State.Inv

/-- Settles O13, along all that a step can do: a reset meets the invariant afresh, and idling, rejecting and
running a command keep it. -/
theorem stepKeepsInvariant : Obligations.StepKeepsInvariant := by
  intro s t hs h
  rcases step_cases s with ⟨-, hstep⟩ | ⟨c, _, rest, -, hstep⟩ | ⟨_, rest, -, -, hstep⟩ |
    ⟨_, rest, e, -, -, -, hstep⟩ | ⟨_, rest, i, -, -, -, hstep⟩ <;> rw [hstep] at h
  · cases h; exact hs
  · cases h; exact resetWith_inv c _ _ rest
  · cases h; exact (hs.with_inputs rest).respond _ _
  · cases h; exact (hs.with_inputs rest).respond _ _
  · exact (hs.with_inputs rest).exec h

end Sys2Proof.Machine
end

section
/-! PROOF. Engines side by side (R64, R225): a step of one leaves the others, and steps of two commute. -/

namespace Sys2Proof.Machine

section
variable {es fs : List State} {s t : State} {k : Nat}

theorem stepAt_of_none (hk : es[k]? = none) : stepAt es k = .next es := by
  simp only [stepAt, hk]

theorem stepAt_of_next (hk : es[k]? = some s) (hs : step s = .next t) : stepAt es k = .next (es.set k t) := by
  simp only [stepAt, hk, hs]

theorem stepAt_frame (h : stepAt es k = .next fs) : fs.length = es.length ∧ ∀ j, j ≠ k → fs[j]? = es[j]? := by
  rcases stepAt_next h with ⟨-, rfl⟩ | ⟨s, t, -, -, rfl⟩
  · exact ⟨rfl, fun _ _ => rfl⟩
  · exact ⟨List.length_set, fun _ hj => List.getElem?_set_ne hj.symm⟩

end

/-- Each engine is the same before and after the other's step, so it takes the same step in either order. -/
theorem stepAt_comm {es fs gs : List State} {j k : Nat} (hjk : j ≠ k) (hj : stepAt es j = .next fs)
    (hk : stepAt es k = .next gs) : ∃ hs, stepAt fs k = .next hs ∧ stepAt gs j = .next hs := by
  have hfs : fs[k]? = es[k]? := (stepAt_frame hj).2 k hjk.symm
  have hgs : gs[j]? = es[j]? := (stepAt_frame hk).2 j hjk
  rcases stepAt_next hj with ⟨hej, rfl⟩ | ⟨s, s', hej, hs, rfl⟩
  · exact ⟨gs, hk, stepAt_of_none (hgs.trans hej)⟩
  rcases stepAt_next hk with ⟨hek, rfl⟩ | ⟨t, t', hek, ht, rfl⟩
  · exact ⟨_, stepAt_of_none (hfs.trans hek), hj⟩
  · refine ⟨_, stepAt_of_next (hfs.trans hek) ht, ?_⟩
    rw [List.set_comm _ _ hjk]
    exact stepAt_of_next (hgs.trans hej) hs

/-- Settles O29: the frame of one engine's step, and that steps of two engines commute. -/
theorem instancesAreIndependent : Obligations.InstancesAreIndependent :=
  ⟨fun _ _ _ => stepAt_frame, fun _ _ _ _ _ => stepAt_comm⟩

end Sys2Proof.Machine
end

section
/-! PROOF. The table indices in states that meet the invariant (R51, R106 to R108). -/

namespace Sys2Proof.Machine

theorem State.Inv.inRange_of_strat_eq {s : State} {x : Strat} (hs : s.Inv) (hx : s.strat = x) :
    x.InRange (cfgG s.cfg) (cfgL s.cfg) (cfgP s.cfg) := hx ▸ hs.inRange

/-- Every entry a Tournament command reads exists: its global index, its slot and its local history are in range (R107). -/
theorem tournRead_inRange {g l p : Nat} {x : TournamentState} (pc : Pc) (h : (Strat.tournament x).InRange g l p) :
    (tournRead p x pc).gidx < 2 ^ g ∧ (tournRead p x pc).slot < 2 ^ p ∧
      (tournRead p x pc).lhist.toNat < 2 ^ l := by
  obtain ⟨hghr, -, -, -, hfits, -⟩ := h
  exact ⟨hghr, lslot_lt p pc, readLht_lt hfits _⟩

theorem percRow_val_eq_extractLsb' (pc : Pc) : (percRow pc).val = (pc.extractLsb' 0 9).toNat := by
  rw [percRow_val, extractLsb'_toNat_eq_div_mod, pow_zero, Nat.div_one]
  rfl

/-- Settles O34: Gshare and Tournament by the ranges the invariant gives, the Perceptron row for every pc. -/
theorem indicesInRange : Obligations.IndicesInRange := by
  refine ⟨fun s g pc hs hg => ?_, fun s x pc hs hx => ?_, percRow_val_eq_extractLsb'⟩
  · obtain ⟨hghr, -⟩ := hs.inRange_of_strat_eq hg
    exact ⟨gsIdx_eq _ pc g.ghr, gsIdx_lt pc hghr⟩
  · obtain ⟨hgidx, hslot, hlhist⟩ := tournRead_inRange pc (hs.inRange_of_strat_eq hx)
    exact ⟨rfl, hgidx, lslot_eq _ pc, hslot, rfl, hlhist⟩

end Sys2Proof.Machine
end

section
/-! PROOF. The decoder and the encoder (R70 to R80): a command word is its four fields, decoding looks at the
fields alone, and so decoding and encoding are inverse to each other. -/

namespace Sys2Proof

open Laws.EncodingShape (cmdPc_cmdWord cmdRsvd_cmdWord cmdOut_cmdWord cmdOp_cmdWord)

/-! ## A command word is its fields -/

theorem cmdWord_eq_iff {pc pc' : Pc} {r r' : BitVec 29} {o o' : Dir} {op op' : BitVec 2} :
    cmdWord pc r o op = cmdWord pc' r' o' op' ↔ pc = pc' ∧ r = r' ∧ o = o' ∧ op = op' := by
  refine ⟨fun h => ⟨?_, ?_, ?_, ?_⟩, fun ⟨hpc, hr, ho, hop⟩ => by rw [hpc, hr, ho, hop]⟩
  · simpa only [cmdPc_cmdWord] using congrArg cmdPc h
  · simpa only [cmdRsvd_cmdWord] using congrArg cmdRsvd h
  · simpa only [cmdOut_cmdWord] using congrArg cmdOut h
  · simpa only [cmdOp_cmdWord] using congrArg cmdOp h

/-- Every bit of a command word lies in one of the four fields of R70. -/
theorem cmdWord_fields (w : CmdWord) : cmdWord (cmdPc w) (cmdRsvd w) (cmdOut w) (cmdOp w) = w := by
  have hout : BitVec.ofBool (cmdOut w) = w.extractLsb' 2 1 := by
    ext i hi
    obtain rfl : i = 0 := by omega
    simp [cmdOut]
  rw [cmdWord, hout, cmdPc, cmdRsvd, cmdOp,
    BitVec.extractLsb'_append_extractLsb'_eq_extractLsb' (start₁ := 3) (len₁ := 29) rfl,
    BitVec.extractLsb'_append_extractLsb'_eq_extractLsb' (start₁ := 2) (len₁ := 1) rfl,
    BitVec.extractLsb'_append_extractLsb'_eq_extractLsb' (start₁ := 0) (len₁ := 2) rfl]
  exact BitVec.extractLsb'_eq_self

theorem cmdWord_and (pc pc' : Pc) (r r' : BitVec 29) (o o' : Dir) (op op' : BitVec 2) :
    cmdWord pc r o op &&& cmdWord pc' r' o' op' = cmdWord (pc &&& pc') (r &&& r') (o && o') (op &&& op') :=
  BitVec.and_append.trans (by rw [BitVec.and_append, BitVec.and_append, BitVec.ofBool_and_ofBool]; rfl)

/-- R76: the mask and the match of a PREDICT fix every field but the pc. -/
theorem and_predictMask_iff (w : CmdWord) : w &&& 0x00000000FFFFFFFF#64 = 0x0000000000000001#64 ↔
    cmdRsvd w = 0#29 ∧ cmdOut w = false ∧ cmdOp w = 0b01#2 := by
  have hmask : 0x00000000FFFFFFFF#64 = cmdWord 0#32 (BitVec.allOnes 29) true (BitVec.allOnes 2) := by decide
  have hmatch : 0x0000000000000001#64 = cmdWord 0#32 0#29 false 0b01#2 := by decide
  conv_lhs => rw [hmask, hmatch, ← cmdWord_fields w, cmdWord_and, cmdWord_eq_iff, BitVec.and_zero,
      BitVec.and_allOnes, BitVec.and_allOnes, Bool.and_true]
  simp only [true_and]

/-- R77: the mask and the match of a TRAIN fix `RSVD` and `OP`. -/
theorem and_trainMask_iff (w : CmdWord) : w &&& 0x00000000FFFFFFFB#64 = 0x0000000000000002#64 ↔
    cmdRsvd w = 0#29 ∧ cmdOp w = 0b10#2 := by
  have hmask : 0x00000000FFFFFFFB#64 = cmdWord 0#32 (BitVec.allOnes 29) false (BitVec.allOnes 2) := by decide
  have hmatch : 0x0000000000000002#64 = cmdWord 0#32 0#29 false 0b10#2 := by decide
  conv_lhs => rw [hmask, hmatch, ← cmdWord_fields w, cmdWord_and, cmdWord_eq_iff, BitVec.and_zero,
      BitVec.and_allOnes, BitVec.and_allOnes, Bool.and_false]
  simp only [true_and]

/-! ## The fields as numbers -/

section
variable (w : CmdWord)

theorem cmdOp_toNat : (cmdOp w).toNat = w.toNat % 4 := by
  rw [cmdOp, BitVec.extractLsb'_toNat, Nat.shiftRight_zero]

theorem cmdRsvd_toNat : (cmdRsvd w).toNat = w.toNat / 8 % 2 ^ 29 := by
  rw [cmdRsvd, BitVec.extractLsb'_toNat, Nat.shiftRight_eq_div_pow]

theorem cmdOut_eq_decide : cmdOut w = decide (w.toNat / 4 % 2 = 1) := by
  rw [cmdOut, BitVec.getLsbD, Nat.testBit_eq_decide_div_mod_eq]

theorem cmdPc_eq_ofNat : cmdPc w = BitVec.ofNat 32 (w.toNat / 2 ^ 32) := by
  rw [cmdPc, BitVec.extractLsb', Nat.shiftRight_eq_div_pow]

theorem cmdOp_eq_iff (op : BitVec 2) : cmdOp w = op ↔ w.toNat % 4 = op.toNat := by
  rw [← BitVec.toNat_inj, cmdOp_toNat]

theorem cmdRsvd_eq_zero_iff : cmdRsvd w = 0#29 ↔ w.toNat / 8 % 2 ^ 29 = 0 := by
  rw [← BitVec.toNat_inj, cmdRsvd_toNat]; rfl

theorem cmdOut_eq_true_iff : cmdOut w = true ↔ w.toNat / 4 % 2 = 1 := by
  rw [cmdOut_eq_decide, decide_eq_true_eq]

theorem cmdOut_eq_false_iff : cmdOut w = false ↔ w.toNat / 4 % 2 = 0 := by
  rw [cmdOut_eq_decide, decide_eq_false_iff_not, Nat.mod_two_not_eq_one]

end

/-! ## The decoder, class by class (R76 to R79) -/

section
variable (st : Strategy) {w : CmdWord}

theorem decode_illegal (h : cmdOp w = 0b00#2 ∨ cmdOp w = 0b11#2) : decode st w = .error .illegalOp :=
  if_pos h

theorem decode_reserved (h : (cmdOp w = 0b01#2 ∨ cmdOp w = 0b10#2) ∧ cmdRsvd w ≠ 0#29 ∨
    cmdOp w = 0b01#2 ∧ cmdOut w = true) : decode st w = .error .rsvdNonzero := by
  rcases h with ⟨hop | hop, hr⟩ | ⟨hop, ho⟩
  · simp [decode, hop, hr]
  · simp [decode, hop, hr]
  · simp [decode, hop, ho]

theorem decode_predict (hr : cmdRsvd w = 0#29) (ho : cmdOut w = false) (hop : cmdOp w = 0b01#2) :
    decode st w = .ok (predictOf st (cmdPc w)) := by
  simp [decode, hr, ho, hop]

theorem decode_train (hr : cmdRsvd w = 0#29) (hop : cmdOp w = 0b10#2) :
    decode st w = .ok (trainOf st (cmdPc w) (cmdOut w)) := by
  simp [decode, hr, hop]

end

/-- The fields of a word put it in one of the four classes of R80. -/
theorem cmdWord_class (w : CmdWord) :
    (cmdRsvd w = 0#29 ∧ cmdOut w = false ∧ cmdOp w = 0b01#2) ∨ (cmdRsvd w = 0#29 ∧ cmdOp w = 0b10#2) ∨
    (cmdOp w = 0b00#2 ∨ cmdOp w = 0b11#2) ∨
    ((cmdOp w = 0b01#2 ∨ cmdOp w = 0b10#2) ∧ cmdRsvd w ≠ 0#29 ∨ cmdOp w = 0b01#2 ∧ cmdOut w = true) := by
  have hops : ∀ op : BitVec 2, op = 0b00#2 ∨ op = 0b01#2 ∨ op = 0b10#2 ∨ op = 0b11#2 := by decide
  rw [← Bool.not_eq_true]
  rcases hops (cmdOp w) with hop | hop | hop | hop
  · exact .inr (.inr (.inl (.inl hop)))
  · tauto
  · tauto
  · exact .inr (.inr (.inl (.inr hop)))

/-- A word that decodes is the word of a PREDICT or of a TRAIN of the engine's strategy. -/
theorem decode_eq_ok {st : Strategy} {w : CmdWord} {i : Instr} (h : decode st w = .ok i) :
    (w = encodePredict (cmdPc w) ∧ i = predictOf st (cmdPc w)) ∨
    (w = encodeTrain (cmdPc w) (cmdOut w) ∧ i = trainOf st (cmdPc w) (cmdOut w)) := by
  rcases cmdWord_class w with ⟨hr, ho, hop⟩ | ⟨hr, hop⟩ | hill | hres
  · rw [decode_predict st hr ho hop] at h
    refine .inl ⟨?_, (Except.ok.inj h).symm⟩
    rw [encodePredict, ← hr, ← ho, ← hop, cmdWord_fields]
  · rw [decode_train st hr hop] at h
    refine .inr ⟨?_, (Except.ok.inj h).symm⟩
    rw [encodeTrain, ← hr, ← hop, cmdWord_fields]
  · rw [decode_illegal st hill] at h; cases h
  · rw [decode_reserved st hres] at h; cases h

/-! ## The encoder -/

section
variable (st : Strategy) (pc : Pc) (o : Dir)

@[simp] theorem encode_predictOf : encode (predictOf st pc) = encodePredict pc := by cases st <;> rfl

@[simp] theorem encode_trainOf : encode (trainOf st pc o) = encodeTrain pc o := by cases st <;> rfl

@[simp] theorem predictOf_wf : (predictOf st pc).wf st = true := by cases st <;> rfl

@[simp] theorem trainOf_wf : (trainOf st pc o).wf st = true := by cases st <;> rfl

@[simp] theorem predictOf_isPredict : (predictOf st pc).isPredict = true := by cases st <;> rfl

@[simp] theorem trainOf_isPredict : (trainOf st pc o).isPredict = false := by cases st <;> rfl

theorem decode_encodePredict : decode st (encodePredict pc) = .ok (predictOf st pc) := by
  rw [encodePredict, decode_predict st (cmdRsvd_cmdWord ..) (cmdOut_cmdWord ..) (cmdOp_cmdWord ..), cmdPc_cmdWord]

theorem decode_encodeTrain : decode st (encodeTrain pc o) = .ok (trainOf st pc o) := by
  rw [encodeTrain, decode_train st (cmdRsvd_cmdWord ..) (cmdOp_cmdWord ..), cmdPc_cmdWord, cmdOut_cmdWord]

end

theorem Instr.wf_iff {st : Strategy} {i : Instr} : i.wf st = true ↔ i.strategy = st := decide_eq_true_iff

/-- The commands of an engine are the PREDICT and the TRAIN of its strategy (R75). -/
theorem Instr.wf_cases {st : Strategy} {i : Instr} (h : i.wf st = true) :
    (∃ pc, i = predictOf st pc) ∨ ∃ pc o, i = trainOf st pc o := by
  obtain rfl := Instr.wf_iff.1 h
  cases i with
  | staticPredict pc | gsharePredict pc | tournPredict pc | percPredict pc => exact .inl ⟨pc, rfl⟩
  | staticTrain pc o | gshareTrain pc o | tournTrain pc o | percTrain pc o => exact .inr ⟨pc, o, rfl⟩

theorem encodePredict_and_predictMask (pc : Pc) :
    encodePredict pc &&& 0x00000000FFFFFFFF#64 = 0x0000000000000001#64 :=
  (and_predictMask_iff _).2 ⟨cmdRsvd_cmdWord .., cmdOut_cmdWord .., cmdOp_cmdWord ..⟩

/-- Only the word of a PREDICT decodes to a PREDICT (R76). -/
theorem and_predictMask_of_decode {st : Strategy} {w : CmdWord} {i : Instr} (h : decode st w = .ok i)
    (hi : i.isPredict = true) : w &&& 0x00000000FFFFFFFF#64 = 0x0000000000000001#64 := by
  rcases decode_eq_ok h with ⟨hw, -⟩ | ⟨-, rfl⟩
  · rw [hw]; exact encodePredict_and_predictMask _
  · rw [trainOf_isPredict] at hi; cases hi

/-- Settles O3: a command is the PREDICT or the TRAIN of its strategy, and the word of each decodes to it. -/
theorem decodeOfEncode : Obligations.DecodeOfEncode := by
  intro st i hi
  rcases Instr.wf_cases hi with ⟨pc, rfl⟩ | ⟨pc, o, rfl⟩
  · rw [encode_predictOf, decode_encodePredict]
  · rw [encode_trainOf, decode_encodeTrain]

/-- Settles O4: only the word of a PREDICT and the word of a TRAIN decode. -/
theorem encodeOfDecode : Obligations.EncodeOfDecode := by
  intro st w i h
  rcases decode_eq_ok h with ⟨hw, rfl⟩ | ⟨hw, rfl⟩
  · exact ⟨(encode_predictOf ..).trans hw.symm, predictOf_wf ..⟩
  · exact ⟨(encode_trainOf ..).trans hw.symm, trainOf_wf ..⟩

/-- Settles O5: the masks and numbers of the four classes are conditions on the fields, which settle how a word
decodes; and as numbers the classes cover all words and exclude one another. -/
theorem everyWordIsOneOfFour : Obligations.EveryWordIsOneOfFour := by
  intro st w
  dsimp only
  rw [← cmdPc_eq_ofNat, ← cmdOut_eq_decide, and_predictMask_iff, and_trainMask_iff]
  refine ⟨fun ⟨hr, ho, hop⟩ => decode_predict st hr ho hop, fun ⟨hr, hop⟩ => decode_train st hr hop,
    fun h => decode_illegal st (h.imp (cmdOp_eq_iff w 0b00#2).2 (cmdOp_eq_iff w 0b11#2).2),
    fun h => decode_reserved st (h.imp ?_ ?_), ?_⟩
  · exact And.imp (Or.imp (cmdOp_eq_iff w 0b01#2).2 (cmdOp_eq_iff w 0b10#2).2) (mt (cmdRsvd_eq_zero_iff w).1)
  · exact And.imp (cmdOp_eq_iff w 0b01#2).2 (cmdOut_eq_true_iff w).2
  · rw [cmdRsvd_eq_zero_iff, cmdOut_eq_false_iff, cmdOp_eq_iff, cmdOp_eq_iff]
    simp only [BitVec.reduceToNat]
    omega

end Sys2Proof
end

section
/-! PROOF. What an accepted command answers (R81, R133): one response, with `PRED` set only by a PREDICT. -/

namespace Sys2Proof.Machine

/-! ## Completion -/

section
variable {x : Strat}

theorem Strat.kind_eq_static : x.kind = some .static ↔ x = .static := by
  cases x <;> simp [Strat.kind]

theorem Strat.kind_eq_gshare : x.kind = some .gshare ↔ ∃ g, x = .gshare g := by
  cases x <;> simp [Strat.kind]

theorem Strat.kind_eq_tournament : x.kind = some .tournament ↔ ∃ t, x = .tournament t := by
  cases x <;> simp [Strat.kind]

theorem Strat.kind_eq_perceptron : x.kind = some .perceptron ↔ ∃ p, x = .perceptron p := by
  cases x <;> simp [Strat.kind]

end

section
variable {s : State} (pc : Pc) (o : Dir)

theorem exec_staticPredict (he : s.cfgErr = false) (hs : s.strat = .static) :
    exec (.staticPredict pc) s = .next (s.respond .ok true) :=
  onSelected_some (x := ()) _ he (static?_eq_some.2 hs)

theorem exec_staticTrain (he : s.cfgErr = false) (hs : s.strat = .static) :
    exec (.staticTrain pc o) s = .next (s.respond .ok false) :=
  onSelected_some (x := ()) _ he (static?_eq_some.2 hs)

end

theorem exists_readRow_of_rowReadable {p : PerceptronState} {r : Fin 512} (h : RowReadable p r) :
    ∃ b ws, readRow p r = some (b, ws) :=
  ⟨_, _, readRow_eq_some.2 ⟨rowReadable_iff.1 h, rfl, rfl⟩⟩

/-- A command of the engine's own strategy completes in every state that meets the invariant (R130). -/
theorem State.Inv.exec_answers {s : State} {i : Instr} (hs : s.Inv) (he : s.cfgErr = false)
    (hi : i.wf (cfgStrategy s.cfg) = true) : ∃ t, Machine.exec i s = .next t := by
  have hk : s.strat.kind = some i.strategy := by
    rw [hs.selected, he, Instr.wf_iff.1 hi]; rfl
  cases i with
  | staticPredict pc => exact ⟨_, exec_staticPredict pc he (Strat.kind_eq_static.1 hk)⟩
  | staticTrain pc o => exact ⟨_, exec_staticTrain pc o he (Strat.kind_eq_static.1 hk)⟩
  | gsharePredict pc =>
    obtain ⟨g, hg⟩ := Strat.kind_eq_gshare.1 hk
    exact ⟨_, exec_gsharePredict pc he hg⟩
  | gshareTrain pc o =>
    obtain ⟨g, hg⟩ := Strat.kind_eq_gshare.1 hk
    exact ⟨_, exec_gshareTrain pc o he hg⟩
  | tournPredict pc =>
    obtain ⟨x, hx⟩ := Strat.kind_eq_tournament.1 hk
    exact ⟨_, exec_tournPredict pc he hx⟩
  | tournTrain pc o =>
    obtain ⟨x, hx⟩ := Strat.kind_eq_tournament.1 hk
    exact ⟨_, exec_tournTrain pc o he hx⟩
  | percPredict pc =>
    obtain ⟨p, hp⟩ := Strat.kind_eq_perceptron.1 hk
    obtain ⟨b, ws, hr⟩ := exists_readRow_of_rowReadable (hs.rowReadable hp (percRow pc))
    exact ⟨_, exec_percPredict pc he hp hr⟩
  | percTrain pc o =>
    obtain ⟨p, hp⟩ := Strat.kind_eq_perceptron.1 hk
    obtain ⟨b, ws, hr⟩ := exists_readRow_of_rowReadable (hs.rowReadable hp (percRow pc))
    exact ⟨_, exec_percTrain pc o he hp hr⟩

/-! ## Responses -/

/-- `PRED` is bit 0 of the response word (R81). -/
theorem rspWord_getLsbD_zero (e : Err) (p : Dir) : (rspWord e p).getLsbD 0 = p := by
  simp only [rspWord, BitVec.getLsbD_append]
  simp

theorem exec_response {i : Instr} {s t : State} (h : exec i s = .next t) :
    ∃ e p, t.responses = s.responses ++ [rspWord e p] ∧ (p = true → e = .ok ∧ i.isPredict = true) := by
  rcases exec_next h with ⟨-, rfl⟩ | ⟨p, -, hp, rfl⟩ | ⟨x, -, -, rfl⟩
  · exact ⟨_, _, rfl, nofun⟩
  · refine ⟨_, _, rfl, fun h => ⟨rfl, ?_⟩⟩
    cases hi : i.isPredict with
    | false => cases (hp hi).symm.trans h
    | true => rfl
  · exact ⟨_, _, rfl, nofun⟩

/-- A command word, met by the checks of R132: CFG_INVALID, a decoding error, or the decoded command. -/
theorem step_command_cases {s : State} {w : CmdWord} {rest : List HostInput} (hi : s.inputs = .command w :: rest) :
    (s.cfgErr = true ∧ step s = .next (State.respond { s with inputs := rest } .cfgInvalid false)) ∨
    (∃ e, s.cfgErr = false ∧ decode (cfgStrategy s.cfg) w = .error e ∧
      step s = .next (State.respond { s with inputs := rest } e false)) ∨
    (∃ i, s.cfgErr = false ∧ decode (cfgStrategy s.cfg) w = .ok i ∧ step s = exec i { s with inputs := rest }) := by
  rcases step_cases s with ⟨h, -⟩ | ⟨_, _, _, h, -⟩ | ⟨_, _, h, hstep⟩ | ⟨_, _, e, h, hstep⟩ |
    ⟨_, _, i, h, hstep⟩ <;> cases hi.symm.trans h
  · exact .inl hstep
  · exact .inr (.inl ⟨e, hstep⟩)
  · exact .inr (.inr ⟨i, hstep⟩)

/-- Settles O20: a rejected command answers with `PRED` = 0, and a command that runs completes, with the one
response that its meaning gives. -/
theorem oneResponsePerCommand : Obligations.OneResponsePerCommand := by
  intro s w rest hs hi
  rcases step_command_cases hi with ⟨-, hstep⟩ | ⟨e, -, -, hstep⟩ | ⟨i, he, hd, hstep⟩
  · exact ⟨_, _, hstep, rfl, rfl, nofun⟩
  · exact ⟨_, _, hstep, rfl, rfl, fun h => nomatch (rspWord_getLsbD_zero e false).symm.trans h⟩
  · obtain ⟨t, ht⟩ := (hs.with_inputs rest).exec_answers he (encodeOfDecode _ _ _ hd).2
    obtain ⟨-, -, -, hin, -⟩ := commandsKeepConfiguration _ _ _ ht
    obtain ⟨e, p, hr, hp⟩ := exec_response ht
    refine ⟨t, _, hstep.trans ht, hin, hr, fun h => ?_⟩
    obtain rfl : p = true := (rspWord_getLsbD_zero e p).symm.trans h
    obtain ⟨rfl, hpred⟩ := hp rfl
    exact ⟨rfl, and_predictMask_of_decode hd hpred⟩

/-- Settles O21: the four error codes, each with both directions. -/
theorem responseWordLayout : Obligations.ResponseWordLayout := by
  unfold Obligations.ResponseWordLayout
  decide

end Sys2Proof.Machine
end

section
/-! PROOF. Words and texts written out in the spec (R70, R86, R87). -/

namespace Sys2Proof.Machine

/-- Settles O1: the lines by running the assembler, the rejected words by the class their fields put them in. -/
theorem workedEncodings : Obligations.WorkedEncodings :=
  ⟨by decide +kernel, by decide +kernel, by decide +kernel, by decide +kernel, by decide +kernel,
    by decide +kernel, by decide +kernel, by decide +kernel, fun st => ⟨decode_illegal st (by decide),
      decode_illegal st (by decide), decode_reserved st (by decide), decode_reserved st (by decide)⟩⟩

/-- Settles O2: the decoder run on each word. -/
theorem writtenWordsDecode : Obligations.WrittenWordsDecode := by
  unfold Obligations.WrittenWordsDecode
  decide

/-- Settles O8: a `BRANCH` line is by definition the two lines, and the assembler run on the texts reads it so. -/
theorem branchIsPredictThenTrain : Obligations.BranchIsPredictThenTrain :=
  ⟨fun _ _ => ⟨rfl, rfl⟩, by decide +kernel, by decide +kernel⟩

end Sys2Proof.Machine
end

section
/-! PROOF. The saturating counter and the decisions taken from it (R102, R103, R115, R116). -/

namespace Sys2Proof.Machine

/-! ## The counter -/

theorem ctrPred_eq_true_iff (c : Counter) : ctrPred c = true ↔ 2 ≤ c.toNat := decide_eq_true_iff

theorem ctrPred_eq_getLsbD (c : Counter) : ctrPred c = c.getLsbD 1 := by
  revert c; decide

/-- R102: Taken updates count up and stop at 3. -/
theorem satUpdate_true_iterate_toNat (c : Counter) (n : Nat) :
    ((fun x => satUpdate x true)^[n] c).toNat = min (c.toNat + n) 3 := by
  induction n with
  | zero => exact (min_eq_left (Nat.le_of_lt_succ c.isLt)).symm
  | succ n ih =>
    rw [Function.iterate_succ_apply', satUpdate_toNat, if_pos rfl, ih]
    omega

/-- R102: NotTaken updates count down and stop at 0. -/
theorem satUpdate_false_iterate_toNat (c : Counter) (n : Nat) :
    ((fun x => satUpdate x false)^[n] c).toNat = c.toNat - n := by
  induction n with
  | zero => rfl
  | succ n ih =>
    rw [Function.iterate_succ_apply', satUpdate_toNat, if_neg Bool.false_ne_true, ih, Nat.sub_sub]

/-- Settles O30: the table by evaluation, the law by induction on the number of updates. -/
theorem counterLaw : Obligations.CounterLaw :=
  ⟨by decide, fun c n => ⟨satUpdate_true_iterate_toNat c n, satUpdate_false_iterate_toNat c n⟩⟩

/-- Settles O31: the first part is how `ctrPred` is defined. -/
theorem counterOutput : Obligations.CounterOutput := fun c => ⟨rfl, ctrPred_eq_getLsbD c⟩

/-! ## The Tournament's choice -/

theorem arb_eq_ite (c : Counter) (gp lp : Dir) : arb c gp lp = if 2 ≤ c.toNat then gp else lp := by
  simp only [arb, ctrPred_eq_true_iff]

section
variable {c : Counter} {gp lp o : Dir}

theorem choiceUpdate_of_agree (h : gp = lp) : choiceUpdate c gp lp o = c := if_pos h

theorem choiceUpdate_of_global_right (h : gp ≠ lp) (hg : gp = o) : choiceUpdate c gp lp o = satUpdate c true := by
  rw [choiceUpdate, if_neg h, if_pos hg]

theorem choiceUpdate_of_local_right (h : gp ≠ lp) (hl : lp = o) : choiceUpdate c gp lp o = satUpdate c false := by
  rw [choiceUpdate, if_neg h, if_neg (hl ▸ h)]

/-- On disagreement one of the two predictions was right: there are only two directions (R116). -/
theorem eq_or_eq_of_disagree (o : Dir) (h : gp ≠ lp) : gp = o ∨ lp = o := by
  revert gp lp o; decide

end

/-- Settles O39: one lemma for each case of the choice counter's update. -/
theorem arbitrationAndChoice : Obligations.ArbitrationAndChoice := by
  refine ⟨arb_eq_ite, fun c gp lp o => ⟨choiceUpdate_of_agree, fun h hg => ?_, fun h hl => ?_,
    eq_or_eq_of_disagree o⟩⟩
  · rw [choiceUpdate_of_global_right h hg, satUpdate_toNat, if_pos rfl]
  · rw [choiceUpdate_of_local_right h hl, satUpdate_toNat, if_neg Bool.false_ne_true]

end Sys2Proof.Machine
end

section
/-! PROOF. The history shifter (R104) and what a history holds after many outcomes (R105). -/

namespace Sys2Proof.Machine

/-- R104: the shifter doubles the history, adds the outcome and keeps the low `w` bits. -/
theorem shiftIn_toNat {n w : Nat} (h : BitVec n) (o : Dir) (hw : w ≤ n) :
    (shiftIn h o w).toNat = (2 * h.toNat + o.toNat) % 2 ^ w := by
  have hsum : h.toNat <<< 1 ||| o.toNat = 2 * h.toNat + o.toNat := by
    rw [← Nat.shiftLeft_add_eq_or_of_lt o.toNat_lt, Nat.shiftLeft_eq, pow_one, Nat.mul_comm]
  rw [shiftIn, mask_toNat, BitVec.toNat_or, BitVec.toNat_shiftLeft, BitVec.toNat_setWidth, BitVec.toNat_ofBool,
    ← Nat.or_mod_two_pow, hsum, Nat.mod_mod_of_dvd _ (Nat.pow_dvd_pow 2 hw)]

/-- Settles O32: width 1 is the general law modulo 2. -/
theorem historyShift : Obligations.HistoryShift := by
  refine ⟨fun n w h o => shiftIn_toNat h o, fun h o => ?_, by decide⟩
  rw [shiftIn_toNat h o (by decide), pow_one, Nat.mul_add_mod, Nat.mod_eq_of_lt o.toNat_lt]

/-- R105: each outcome shifted in moves those before it, and then the starting bits, one place up. -/
theorem foldl_shiftIn_getLsbD {n w : Nat} (h : BitVec n) (os : List Dir) {i : Nat} (hw : w ≤ n) (hi : i < w) :
    (os.foldl (fun x o => shiftIn x o w) h).getLsbD i =
      if i < os.length then os.getD (os.length - 1 - i) false else h.getLsbD (i - os.length) := by
  induction os using List.reverseRecOn generalizing i with
  | nil => rfl
  | append_singleton os o ih =>
    rw [List.foldl_concat, shiftIn_getLsbD _ _ _ _ (hi.trans_le hw), decide_eq_true hi, Bool.true_and,
      List.length_append, List.length_singleton]
    cases i with
    | zero => simp
    | succ i =>
      rw [if_neg i.succ_ne_zero, Nat.add_sub_cancel, ih (Nat.lt_of_succ_lt hi)]
      by_cases hlen : i < os.length
      · have hidx : os.length + 1 - 1 - (i + 1) = os.length - 1 - i := by omega
        rw [if_pos hlen, if_pos (Nat.succ_lt_succ hlen), hidx, List.getD_append _ _ _ _ (by omega)]
      · rw [if_neg hlen, if_neg (mt Nat.lt_of_succ_lt_succ hlen), Nat.add_sub_add_right]

/-- Settles O33, by induction on the outcomes from the latest one back. -/
theorem historyHoldsRecentOutcomes : Obligations.HistoryHoldsRecentOutcomes :=
  fun _ _ h os _ hw _ _ hi => foldl_shiftIn_getLsbD h os hw hi

end Sys2Proof.Machine
end

section
/-! PROOF. The Perceptron's arithmetic (R109 to R114): the sign map, the clamp, the dot product with its range, the
training condition and the weight update. -/

namespace Sys2Proof.Machine

/-! ## Sign map and clamp -/

theorem signMap_ne_zero (b : Bool) : signMap b ≠ 0 := by
  rcases signMap_eq b with h | h <;> rw [h] <;> decide

theorem abs_signMap (b : Bool) : |signMap b| = 1 := by
  rcases signMap_eq b with h | h <;> rw [h] <;> rfl

/-- A history bit that agrees with the outcome moves its weight up, one that does not moves it down (R114). -/
theorem signMap_mul_signMap (o b : Bool) : signMap o * signMap b = if b = o then 1 else -1 := by
  revert o b; decide

theorem clamp_eq (v : Int) : clamp v = max (-31) (min 31 v) := rfl

theorem clamp_of_mem {v : Int} (h₁ : -31 ≤ v) (h₂ : v ≤ 31) : clamp v = v := by
  rw [clamp_eq, min_eq_right h₂, max_eq_right h₁]

/-- Settles O35: the corner cases by evaluation. -/
theorem signMapAndClamp : Obligations.SignMapAndClamp :=
  ⟨rfl, rfl, signMap_ne_zero, clamp_eq, by decide, by decide, fun _ => clamp_of_mem⟩

/-! ## The dot product -/

theorem percSum_eq_rowSum (p : PerceptronState) (r : Fin 512) (h : PercHist) :
    percSum p.pbias[r] p.pw[r] h = rowSum p r h := by
  rw [rowSum, Fin.sum_univ_def]
  rfl

/-- R34: a bias or weight that is not the pattern of -32 has a magnitude of at most 31. -/
theorem abs_weight_le {w : Weight} (h : w.toInt ≠ -32) : |w.toInt| ≤ 31 := by
  have h₁ := w.le_toInt
  have h₂ := w.toInt_lt
  exact abs_le.2 (by omega)

theorem abs_weight_mul_signMap_le {w : Weight} (h : w.toInt ≠ -32) (b : Bool) : |w.toInt * signMap b| ≤ 31 := by
  rw [abs_mul, abs_signMap, mul_one]
  exact abs_weight_le h

/-- R111: thirteen values of magnitude at most 31 sum to a magnitude of at most 403. -/
theorem abs_rowSum_le {p : PerceptronState} {r : Fin 512} (hr : RowReadable p r) (h : PercHist) :
    |rowSum p r h| ≤ 403 := by
  obtain ⟨hb, hw⟩ := hr
  have hws : |∑ i : Fin 12, p.pw[r][i].toInt * signMap (h.getLsbD i)| ≤ 12 * 31 :=
    calc _ ≤ ∑ i : Fin 12, |p.pw[r][i].toInt * signMap (h.getLsbD i)| := Finset.abs_sum_le_sum_abs _ _
      _ ≤ Finset.univ.card • (31 : Int) :=
        Finset.sum_le_card_nsmul _ _ _ fun i _ => abs_weight_mul_signMap_le (hw i) _
      _ = 12 * 31 := rfl
  exact (abs_add_le _ _).trans (add_le_add (abs_weight_le hb) hws)

theorem rowSum_of_zero {p : PerceptronState} {r : Fin 512} (h : PercHist) (hb : p.pbias[r].toInt = 0)
    (hw : ∀ i : Fin 12, p.pw[r][i].toInt = 0) : rowSum p r h = 0 := by
  simp only [rowSum, hb, hw, zero_mul, Finset.sum_const_zero, add_zero]

/-- Settles O36. -/
theorem dotProductRange : Obligations.DotProductRange := fun p r h =>
  ⟨percSum_eq_rowSum p r h, fun hr => abs_le.1 (abs_rowSum_le hr h), rowSum_of_zero h⟩

/-! ## Decision and training condition -/

theorem percTrainEn_iff_abs (y : Int) (o : Dir) : percTrainEn y o = true ↔ percPred y ≠ o ∨ |y| ≤ 37 := by
  rw [percTrainEn_eq_true, Int.abs_eq_natAbs, Nat.cast_le_ofNat]

/-- Settles O37: the corner cases by evaluation. -/
theorem trainingCondition : Obligations.TrainingCondition :=
  ⟨percPred_eq_true, by decide, percTrainEn_iff_abs, by decide, by decide, by decide, by decide⟩

/-! ## The weight update -/

theorem trainBias_toInt (b : Weight) (o : Dir) : (trainBias b o).toInt = clamp (b.toInt + if o then 1 else -1) :=
  stepWeight_toInt b _

theorem trainWeights_toInt (ws : Vector Weight 12) (h : PercHist) (o : Dir) (i : Fin 12) :
    (trainWeights ws h o)[i].toInt = clamp (ws[i].toInt + if h.getLsbD i = o then 1 else -1) := by
  rw [Fin.getElem_fin, trainWeights_getElem, stepWeight_toInt, signMap_mul_signMap]
  rfl

/-- R114: a value moved by one step and clamped has moved, unless it stood at the clamp. -/
theorem clamp_step_moves {v d : Int} (hv : |v| ≤ 31) (hd : d = 1 ∨ d = -1) :
    |clamp (v + d) - v| = 1 ∨ clamp (v + d) = v ∧ |v| = 31 := by
  obtain ⟨h₁, h₂⟩ := abs_le.1 hv
  rcases hd with rfl | rfl
  · rcases h₂.eq_or_lt with rfl | h₂
    · exact .inr ⟨rfl, rfl⟩
    · exact .inl (by rw [clamp_of_mem (by omega) (by omega), add_sub_cancel_left]; rfl)
  · rcases h₁.eq_or_lt with rfl | h₁
    · exact .inr ⟨rfl, rfl⟩
    · exact .inl (by rw [clamp_of_mem (by omega) (by omega), add_sub_cancel_left]; rfl)

/-- Settles O38: the bias and each weight are one clamped step of 1 or -1. -/
theorem weightsMoveOneStep : Obligations.WeightsMoveOneStep := by
  intro b ws h o
  refine ⟨trainBias_toInt b o, trainWeights_toInt ws h o, fun hb => ?_, fun i hw => ?_⟩
  · rw [trainBias_toInt]
    exact clamp_step_moves (abs_weight_le hb) (ite_eq_or_eq _ _ _)
  · rw [trainWeights_toInt]
    exact clamp_step_moves (abs_weight_le hw) (ite_eq_or_eq _ _ _)

end Sys2Proof.Machine
end

section
/-! PROOF. What a command's outcome can depend on: of the pc, the index bits (R106 to R108); of the state, for a
PREDICT, the entries it reads (R117). -/

namespace Sys2Proof.Machine

/-! ## The pc -/

section
variable {w : Nat} {pc pc' : Pc} (o : Dir) (s : State)

theorem gsIdx_congr (h : pc.toNat % 2 ^ w = pc'.toNat % 2 ^ w) (ghr : Hist) : gsIdx w pc ghr = gsIdx w pc' ghr := by
  rw [gsIdx_eq, gsIdx_eq, h]

theorem lslot_congr (h : pc.toNat % 2 ^ w = pc'.toNat % 2 ^ w) : lslot w pc = lslot w pc' := by
  rw [lslot_eq, lslot_eq, h]

theorem percRow_congr (h : pc.toNat % 512 = pc'.toNat % 512) : percRow pc = percRow pc' := Fin.ext h

theorem gsharePred_congr_pc (h : pc.toNat % 2 ^ w = pc'.toNat % 2 ^ w) (g : GshareState) :
    gsharePred w g pc = gsharePred w g pc' := by
  rw [gsharePred, gsharePred, gsIdx_congr h]

theorem gshareTrained_congr_pc (h : pc.toNat % 2 ^ w = pc'.toNat % 2 ^ w) (g : GshareState) :
    gshareTrained w g pc o = gshareTrained w g pc' o := by
  rw [gshareTrained, gshareTrained, gsIdx_congr h]

theorem tournRead_congr_pc (h : pc.toNat % 2 ^ w = pc'.toNat % 2 ^ w) (t : TournamentState) :
    tournRead w t pc = tournRead w t pc' := by
  rw [tournRead, tournRead, lslot_congr h]

theorem tournPred_congr_pc (h : pc.toNat % 2 ^ w = pc'.toNat % 2 ^ w) (t : TournamentState) :
    tournPred w t pc = tournPred w t pc' := by
  rw [tournPred, tournPred, tournRead_congr_pc h]

theorem tournTrained_congr_pc (g l : Nat) (h : pc.toNat % 2 ^ w = pc'.toNat % 2 ^ w) (t : TournamentState) :
    tournTrained g l w t pc o = tournTrained g l w t pc' o := by
  rw [tournTrained, tournTrained, tournRead_congr_pc h]

end

/-- Settles O53: each command uses its pc only through its index. -/
theorem onlyIndexBitsOfPcMatter : Obligations.OnlyIndexBitsOfPcMatter := by
  refine fun s pc pc' o => ⟨⟨rfl, rfl⟩, fun h => ⟨?_, ?_⟩, fun h => ⟨?_, ?_⟩, fun h => ⟨?_, ?_⟩⟩
  · simp only [exec, execGsharePredict, gsharePred_congr_pc h]
  · simp only [exec, execGshareTrain, gshareTrained_congr_pc o h]
  · simp only [exec, execTournPredict, tournPred_congr_pc h]
  · simp only [exec, execTournTrain, tournTrained_congr_pc o _ _ h]
  · simp only [exec, execPercPredict, percRow_congr h]
  · simp only [exec, execPercTrain, percRow_congr h]

/-! ## The entries a PREDICT reads -/

/-- R117: a Gshare prediction reads `GHR` and one counter. -/
theorem gsharePred_congr_reads {w : Nat} {pc : Pc} {g g' : GshareState} (hghr : g.ghr = g'.ghr)
    (hpht : readPht g.pht (gsIdx w pc g.ghr) = readPht g'.pht (gsIdx w pc g.ghr)) :
    gsharePred w g pc = gsharePred w g' pc := by
  rw [gsharePred, gsharePred, ← hghr, hpht]

/-- R117: a Tournament command reads `GHR`, the two counters it selects, the local history and the counter that
selects. -/
theorem tournRead_congr_reads {w : Nat} {pc : Pc} {x x' : TournamentState} (hghr : x.ghr = x'.ghr)
    (hpht : readPht x.pht x.ghr.toNat = readPht x'.pht x.ghr.toNat)
    (hct : readCt x.ct x.ghr.toNat = readCt x'.ct x.ghr.toNat)
    (hlht : readLht x.lht (lslot w pc) = readLht x'.lht (lslot w pc))
    (hlpt : readLpt x.lpt (readLht x.lht (lslot w pc)).toNat = readLpt x'.lpt (readLht x.lht (lslot w pc)).toNat) :
    tournRead w x pc = tournRead w x' pc := by
  simp only [tournRead, ← hghr, ← hpht, ← hct, ← hlht, ← hlpt]

/-- R117: the Perceptron reads one row, and two rows with the same 13 values are read alike. -/
theorem readRow_congr_reads {p p' : PerceptronState} {r : Fin 512} (hb : p.pbias[r] = p'.pbias[r])
    (hw : p.pw[r] = p'.pw[r]) : readRow p r = readRow p' r := by
  rw [readRow, readRow, hb, hw]

/-- Settles O54: in each strategy the two engines make the same prediction, and answering changes the responses
alone. -/
theorem predictReadsOnlyItsEntries : Obligations.PredictReadsOnlyItsEntries := by
  intro s u pc hcfg hs hu
  refine ⟨fun hst hst' => ?_, fun g g' hg hg' hghr hpht => ?_, fun x x' hx hx' hghr hreads => ?_,
    fun p p' hp hp' hghr hrow hb hw => ?_⟩
  · exact ⟨_, exec_staticPredict pc hs hst, exec_staticPredict pc hu hst'⟩
  · refine ⟨_, exec_gsharePredict pc hs hg, ?_⟩
    rw [gsharePred_congr_reads hghr (by rw [gsIdx_eq]; exact hpht), hcfg]
    exact exec_gsharePredict pc hu hg'
  · obtain ⟨hpht, hct, hlht, hlpt⟩ := hreads
    rw [← lslot_eq] at hlht hlpt
    refine ⟨_, exec_tournPredict pc hs hx, ?_⟩
    rw [tournPred, tournRead_congr_reads hghr hpht hct hlht hlpt, hcfg]
    exact exec_tournPredict pc hu hx'
  · obtain ⟨b, ws, hr⟩ := exists_readRow_of_rowReadable hrow
    refine ⟨_, exec_percPredict pc hs hp hr, ?_⟩
    rw [hghr]
    exact exec_percPredict pc hu hp' ((readRow_congr_reads hb hw).symm.trans hr)

end Sys2Proof.Machine
end

section
/-! PROOF. Dispatch (R132, R134): a word that passes the checks runs as its command, and while `CFG_ERR` = 1 none
does (R212). -/

namespace Sys2Proof.Machine

theorem step_of_decode {s : State} {w : CmdWord} {rest : List HostInput} {i : Instr}
    (hi : s.inputs = .command w :: rest) (he : s.cfgErr = false) (hd : decode (cfgStrategy s.cfg) w = .ok i) :
    step s = exec i { s with inputs := rest } := by
  rcases step_command_cases hi with ⟨he', -⟩ | ⟨e, -, hd', -⟩ | ⟨j, -, hd', hstep⟩
  · cases he.symm.trans he'
  · cases hd.symm.trans hd'
  · cases hd.symm.trans hd'; exact hstep

/-- Settles O16: the word `withFetchWord` places is the next move, and consuming it gives back the state. -/
theorem stepRunsDecodedCommand : Obligations.StepRunsDecodedCommand :=
  ⟨fun _ _ _ _ => step_of_decode, fun s nbits w _ he hd => step_of_decode (s := s.withFetchWord nbits w) rfl he hd⟩

/-! ## Illegal configurations -/

section
variable {s : State} (he : s.cfgErr = true)
include he

theorem step_command_of_cfgErr {w : CmdWord} {rest : List HostInput} (hi : s.inputs = .command w :: rest) :
    step s = .next (State.respond { s with inputs := rest } .cfgInvalid false) := by
  rcases step_command_cases hi with ⟨-, hstep⟩ | ⟨e, he', -⟩ | ⟨i, he', -⟩
  · exact hstep
  · cases he.symm.trans he'
  · cases he.symm.trans he'

theorem onSelected_of_cfgErr {α : Type} (pick : Strat → Option α) (k : α → Host.Outcome State Fault Refusal) :
    onSelected s pick k = .next (s.respond .cfgInvalid false) := if_pos he

theorem exec_of_cfgErr (i : Instr) : exec i s = .next (s.respond .cfgInvalid false) := by
  cases i <;> exact onSelected_of_cfgErr he _ _

/-- R22: no strategy state exists while `CFG_ERR` = 1. -/
theorem State.Inv.strat_eq_absent (hs : s.Inv) : s.strat = .absent := by
  have hkind : s.strat.kind = none := by rw [hs.selected, he]; rfl
  cases hx : s.strat with
  | absent => rfl
  | static | gshare | tournament | perceptron => rw [hx] at hkind; cases hkind

/-- R212: the only way out of `CFG_ERR` = 1 is a reset with a legal configuration. -/
theorem step_clears_cfgErr {t : State} (h : step s = .next t) (ht : t.cfgErr = false) :
    ∃ c lost rest, s.inputs = .reset c lost :: rest ∧ cfgLegal c = true := by
  rcases step_reset_or_keeps h with ⟨c, lost, rest, hi, rfl⟩ | ⟨-, herr, -, -⟩
  · exact ⟨c, lost, rest, hi, by simpa using ht⟩
  · cases (herr.trans he).symm.trans ht

end

/-- Settles O19: the step and `exec` each by their check of `CFG_ERR`, the way out by what a step keeps. -/
theorem cfgInvalidUntilLegalReset : Obligations.CfgInvalidUntilLegalReset :=
  ⟨fun _ _ _ he => step_command_of_cfgErr he, fun _ i he => exec_of_cfgErr he i, fun _ _ he => step_clears_cfgErr he,
    fun _ hs he => hs.strat_eq_absent he⟩

end Sys2Proof.Machine
end

section
/-! PROOF. Runs never stop (R130, R131), and legal commands never fail (R141). -/

namespace Sys2Proof.Machine

/-! ## Every step answers -/

theorem State.Inv.step_answers {s : State} (hs : s.Inv) : ∃ t, step s = .next t := by
  rcases step_cases s with ⟨-, h⟩ | ⟨_, _, _, -, h⟩ | ⟨_, _, -, -, h⟩ | ⟨_, _, _, -, -, -, h⟩ |
    ⟨w, rest, i, -, he, hd, h⟩
  · exact ⟨_, h⟩
  · exact ⟨_, h⟩
  · exact ⟨_, h⟩
  · exact ⟨_, h⟩
  · rw [h]
    exact (hs.with_inputs rest).exec_answers he (encodeOfDecode _ _ _ hd).2

/-- Settles O14: a reset, an error response and idling always answer, and a word decodes only to a command of the
engine's own strategy. -/
theorem stepAlwaysAnswers : Obligations.StepAlwaysAnswers := fun _ hs => hs.step_answers

/-! ## Runs -/

theorem run_succ_of_step {s t : State} (k : Nat) (h : step s = .next t) :
    core.run (k + 1) s = core.run k t := by
  have hstep : core.step s = .next t := h
  simp only [Host.Core.run, hstep]

/-- From a state that meets the invariant, every run answers, with the invariant (R130, R131). -/
theorem State.Inv.run_answers {s : State} (hs : s.Inv) (k : Nat) : ∃ t : State, core.run k s = .next t ∧ t.Inv := by
  induction k generalizing s with
  | zero => exact ⟨s, rfl, hs⟩
  | succ k ih =>
    obtain ⟨u, hu⟩ := hs.step_answers
    rw [run_succ_of_step k hu]
    exact ih (stepKeepsInvariant s u hs hu)

/-- Settles O15: every reset meets the invariant. -/
theorem everyRunFromEveryResetIsSafe : Obligations.EveryRunFromEveryResetIsSafe :=
  fun c d n k moves => (resetWith_inv c d n moves).run_answers k

/-! ## Legal words -/

theorem exists_decode_of_legalWord (st : Strategy) {w : CmdWord} (h : LegalWord w) : ∃ i, decode st w = .ok i := by
  rcases h with h | h
  · obtain ⟨hr, ho, hop⟩ := (and_predictMask_iff w).1 h
    exact ⟨_, decode_predict st hr ho hop⟩
  · obtain ⟨hr, hop⟩ := (and_trainMask_iff w).1 h
    exact ⟨_, decode_train st hr hop⟩

/-- With a legal configuration, a command that answers answers OK. -/
theorem exec_response_ok {i : Instr} {s t : State} (he : s.cfgErr = false) (h : exec i s = .next t) :
    ∃ p, t.responses = s.responses ++ [rspWord .ok p] := by
  rcases exec_next h with ⟨he', -⟩ | ⟨p, -, -, rfl⟩ | ⟨x, -, -, rfl⟩
  · cases he.symm.trans he'
  · exact ⟨p, rfl⟩
  · exact ⟨false, rfl⟩

theorem State.Inv.step_legal {s : State} {w : CmdWord} {rest : List HostInput} (hs : s.Inv) (he : s.cfgErr = false)
    (hi : s.inputs = .command w :: rest) (hw : LegalWord w) :
    ∃ t p, step s = .next t ∧ t.cfgErr = false ∧ t.inputs = rest ∧
      t.responses = s.responses ++ [rspWord .ok p] := by
  obtain ⟨i, hd⟩ := exists_decode_of_legalWord (cfgStrategy s.cfg) hw
  obtain ⟨t, ht⟩ := (hs.with_inputs rest).exec_answers he (encodeOfDecode _ _ _ hd).2
  obtain ⟨-, herr, -, hin, -, -⟩ := commandsKeepConfiguration _ _ _ ht
  obtain ⟨p, hp⟩ := exec_response_ok (s := { s with inputs := rest }) he ht
  exact ⟨t, p, (step_of_decode hi he hd).trans ht, herr.trans he, hin, hp⟩

theorem rspWord_ok_err (p : Dir) : (rspWord .ok p).extractLsb' 1 2 = 0b00#2 := by
  revert p; decide

theorem State.Inv.run_legal {s : State} (ws : List CmdWord) (hs : s.Inv) (he : s.cfgErr = false)
    (hi : s.inputs = ws.map .command) (hws : ∀ w ∈ ws, LegalWord w) :
    ∃ (t : State) (rs : List RspWord), core.run ws.length s = .next t ∧ t.responses = s.responses ++ rs ∧
      rs.length = ws.length ∧ ∀ r ∈ rs, r.extractLsb' 1 2 = 0b00#2 := by
  induction ws generalizing s with
  | nil => exact ⟨s, [], rfl, (List.append_nil _).symm, rfl, nofun⟩
  | cons w ws ih =>
    obtain ⟨hw, hws⟩ := List.forall_mem_cons.1 hws
    obtain ⟨u, p, hstep, heu, hiu, hru⟩ := hs.step_legal he hi hw
    obtain ⟨t, rs, hrun, hrt, hlen, hrs⟩ := ih (stepKeepsInvariant s u hs hstep) heu hiu hws
    refine ⟨t, rspWord .ok p :: rs, (run_succ_of_step _ hstep).trans hrun, ?_, congrArg (· + 1) hlen,
      List.forall_mem_cons.2 ⟨rspWord_ok_err p, hrs⟩⟩
    rw [hrt, hru, List.append_assoc, List.singleton_append]

/-- Settles O22, by induction on the words: each legal word runs a command of the engine, which answers OK. -/
theorem legalCommandsNeverFail : Obligations.LegalCommandsNeverFail :=
  fun _ ws hs he hws => (hs.with_inputs (ws.map .command)).run_legal ws he rfl hws

end Sys2Proof.Machine
end

section
/-! PROOF. PREDICTs change no state (R135), so any number of them answer as one would (R136) and a TRAIN after them
does what it would have done without them (R137). -/

namespace Sys2Proof.Machine

/-! ## What can change the strategy state -/

theorem TrainStep.isPredict_eq_false {c : CfgWord} {i : Instr} {x y : Strat} (h : TrainStep c i x y) :
    i.isPredict = false := by
  cases h <;> rfl

/-- Only the word of a TRAIN decodes to a TRAIN (R77). -/
theorem and_trainMask_of_decode {st : Strategy} {w : CmdWord} {i : Instr} (h : decode st w = .ok i)
    (hi : i.isPredict = false) : w &&& 0x00000000FFFFFFFB#64 = 0x0000000000000002#64 := by
  rcases decode_eq_ok h with ⟨-, rfl⟩ | ⟨hw, -⟩
  · rw [predictOf_isPredict] at hi; cases hi
  · rw [hw, and_trainMask_iff]
    exact ⟨Laws.EncodingShape.cmdRsvd_cmdWord .., Laws.EncodingShape.cmdOp_cmdWord ..⟩

theorem exec_predict_frame {i : Instr} {s t : State} (hi : i.isPredict = true) (h : exec i s = .next t) :
    ∃ r, t = { s with responses := s.responses ++ [r] } := by
  rcases exec_next h with ⟨-, rfl⟩ | ⟨p, -, -, rfl⟩ | ⟨x, -, hx, rfl⟩
  · exact ⟨_, rfl⟩
  · exact ⟨_, rfl⟩
  · cases hx.isPredict_eq_false.symm.trans hi

/-- Settles O25: of all that a step on a command word can do, only training writes the strategy state. -/
theorem predictChangesNoState : Obligations.PredictChangesNoState := by
  refine ⟨fun i s t => exec_predict_frame, fun s t w rest hi h hne => ?_⟩
  rcases step_command_cases hi with ⟨-, hstep⟩ | ⟨e, -, -, hstep⟩ | ⟨i, he, hd, hstep⟩ <;> rw [hstep] at h
  · cases h; exact absurd rfl hne
  · cases h; exact absurd rfl hne
  · rcases exec_next h with ⟨-, rfl⟩ | ⟨p, -, -, rfl⟩ | ⟨x, -, hx, rfl⟩
    · exact absurd rfl hne
    · exact absurd rfl hne
    · exact ⟨and_trainMask_of_decode hd hx.isPredict_eq_false, he, rfl⟩

/-! ## The two commands as functions of configuration and strategy state -/

/-- The prediction of an engine with configuration `c` and strategy state `x` (R150, R160, R173, R191); without a
strategy state `PRED` is 0 (R212). -/
def Strat.prediction (c : CfgWord) (pc : Pc) : Strat → Dir
  | .absent => false
  | .static => true
  | .gshare g => gsharePred (cfgG c) g pc
  | .tournament t => tournPred (cfgP c) t pc
  | .perceptron p => percPred (percSum p.pbias[percRow pc] p.pw[percRow pc] p.ghr)

/-- The strategy state `x` trained under configuration `c` (R151, R161, R175, R192). -/
def Strat.trained (c : CfgWord) (pc : Pc) (o : Dir) : Strat → Strat
  | .absent => .absent
  | .static => .static
  | .gshare g => .gshare (gshareTrained (cfgG c) g pc o)
  | .tournament t => .tournament (tournTrained (cfgG c) (cfgL c) (cfgP c) t pc o)
  | .perceptron p =>
    .perceptron (percTrained p (percRow pc) p.pbias[percRow pc] p.pw[percRow pc] o)

/-- The error code of a legal command: CFG_INVALID with `CFG_ERR` = 1, else OK (R141, R212). -/
def State.legalErr (s : State) : Err := if s.cfgErr then .cfgInvalid else .ok

theorem State.legalErr_of_cfgErr {s : State} (he : s.cfgErr = true) : s.legalErr = .cfgInvalid := if_pos he

theorem State.legalErr_of_not_cfgErr {s : State} (he : s.cfgErr = false) : s.legalErr = .ok := by
  simp [State.legalErr, he]

namespace State.Inv
variable {s : State} (hs : s.Inv)
include hs

/-- A row read in a state that meets the invariant is the row held (R36, R117). -/
theorem readRow_eq {p : PerceptronState} (hp : s.strat = .perceptron p) (r : Fin 512) :
    readRow p r = some (p.pbias[r], p.pw[r]) :=
  readRow_eq_some.2 ⟨rowReadable_iff.1 (hs.rowReadable hp r), rfl, rfl⟩

section
variable (he : s.cfgErr = false)
include he

theorem kind_eq : s.strat.kind = some (cfgStrategy s.cfg) := by
  rw [hs.selected, he]; rfl

theorem exec_predictOf (pc : Pc) : Machine.exec (predictOf (cfgStrategy s.cfg) pc) s =
    .next (s.respond .ok (s.strat.prediction s.cfg pc)) := by
  have hk := hs.kind_eq he
  generalize cfgStrategy s.cfg = st at hk ⊢
  cases st with
  | static =>
    have hx := Strat.kind_eq_static.1 hk
    rw [hx]
    exact exec_staticPredict pc he hx
  | gshare =>
    obtain ⟨g, hx⟩ := Strat.kind_eq_gshare.1 hk
    rw [hx]
    exact exec_gsharePredict pc he hx
  | tournament =>
    obtain ⟨t, hx⟩ := Strat.kind_eq_tournament.1 hk
    rw [hx]
    exact exec_tournPredict pc he hx
  | perceptron =>
    obtain ⟨p, hx⟩ := Strat.kind_eq_perceptron.1 hk
    rw [hx]
    exact exec_percPredict pc he hx (hs.readRow_eq hx _)

theorem exec_trainOf (pc : Pc) (o : Dir) : Machine.exec (trainOf (cfgStrategy s.cfg) pc o) s =
    .next ((s.setStrat (s.strat.trained s.cfg pc o)).respond .ok false) := by
  have hk := hs.kind_eq he
  generalize cfgStrategy s.cfg = st at hk ⊢
  cases st with
  | static =>
    have hx := Strat.kind_eq_static.1 hk
    have hset : s.setStrat (s.strat.trained s.cfg pc o) = s := by rw [hx, Strat.trained, ← hx]; rfl
    rw [hset]
    exact exec_staticTrain pc o he hx
  | gshare =>
    obtain ⟨g, hx⟩ := Strat.kind_eq_gshare.1 hk
    rw [hx]
    exact exec_gshareTrain pc o he hx
  | tournament =>
    obtain ⟨t, hx⟩ := Strat.kind_eq_tournament.1 hk
    rw [hx]
    exact exec_tournTrain pc o he hx
  | perceptron =>
    obtain ⟨p, hx⟩ := Strat.kind_eq_perceptron.1 hk
    rw [hx]
    exact exec_percTrain pc o he hx (hs.readRow_eq hx _)

end

/-- A PREDICT answers the prediction of the strategy state and changes nothing else. -/
theorem step_predict {pc : Pc} {rest : List HostInput} (hi : s.inputs = .command (encodePredict pc) :: rest) :
    step s = .next (State.respond { s with inputs := rest } s.legalErr (s.strat.prediction s.cfg pc)) := by
  rcases s.cfgErr.eq_false_or_eq_true with he | he
  · rw [step_command_of_cfgErr he hi, State.legalErr_of_cfgErr he, hs.strat_eq_absent he]
    rfl
  · rw [step_of_decode hi he (decode_encodePredict _ pc), State.legalErr_of_not_cfgErr he]
    exact (hs.with_inputs rest).exec_predictOf he pc

/-- A TRAIN leaves the strategy state trained, whatever the responses before it. -/
theorem step_train {pc : Pc} {o : Dir} {rest : List HostInput}
    (hi : s.inputs = .command (encodeTrain pc o) :: rest) :
    ∃ t, step s = .next t ∧ t.strat = s.strat.trained s.cfg pc o := by
  rcases s.cfgErr.eq_false_or_eq_true with he | he
  · refine ⟨_, step_command_of_cfgErr he hi, ?_⟩
    simp only [State.respond_strat, hs.strat_eq_absent he, Strat.trained]
  · rw [step_of_decode hi he (decode_encodeTrain _ pc o)]
    exact ⟨_, (hs.with_inputs rest).exec_trainOf he pc o, rfl⟩

end State.Inv

/-! ## Runs of PREDICTs -/

/-- The response of an engine in state `s` to a PREDICT. -/
def State.answer (s : State) (pc : Pc) : RspWord := rspWord s.legalErr (s.strat.prediction s.cfg pc)

/-- A run of PREDICTs adds each pc's answer to the responses, and what follows runs on the state they found. -/
theorem State.Inv.run_predicts {s : State} (hs : s.Inv) (pcs : List Pc) (rest : List HostInput) (k : Nat) :
    core.run (pcs.length + k) { s with inputs := (pcs.map fun pc => .command (encodePredict pc)) ++ rest } =
      core.run k { s with inputs := rest, responses := s.responses ++ pcs.map s.answer } := by
  induction pcs generalizing s with
  | nil => simp
  | cons pc pcs ih =>
    have hstep := (hs.with_inputs (.command (encodePredict pc) ::
      ((pcs.map fun pc => .command (encodePredict pc)) ++ rest))).step_predict rfl
    rw [List.length_cons, Nat.succ_add, List.map_cons, List.cons_append, run_succ_of_step _ hstep]
    refine (ih (hs.respond s.legalErr (s.strat.prediction s.cfg pc))).trans ?_
    rw [State.respond_responses, List.append_assoc, List.singleton_append]
    rfl

/-- Settles O26: the answers are those the state they all find gives. -/
theorem repeatedPredictsAgree : Obligations.RepeatedPredictsAgree := by
  refine fun s hs => ⟨s.answer, fun pc => ⟨_, (hs.with_inputs _).step_predict rfl, rfl⟩, fun pcs => ?_⟩
  have hrun := hs.run_predicts pcs [] 0
  rw [List.append_nil, Nat.add_zero] at hrun
  exact ⟨_, hrun, rfl, rfl⟩

/-- Settles O27: after the PREDICTs the TRAIN finds the configuration and the strategy state it would have found
without them, and it depends on nothing else. -/
theorem trainDoesNotNeedThePredict : Obligations.TrainDoesNotNeedThePredict := by
  intro s pcs pc o hs
  have hr : State.Inv
      { s with inputs := [.command (encodeTrain pc o)], responses := s.responses ++ pcs.map s.answer } :=
    ⟨hs.honest, hs.selected, hs.inRange⟩
  obtain ⟨t, ht, htrain⟩ := hr.step_train rfl
  obtain ⟨u, hu, hutrain⟩ := (hs.with_inputs [.command (encodeTrain pc o)]).step_train rfl
  refine ⟨t, u, ?_, hu, htrain.trans hutrain.symm⟩
  rw [hs.run_predicts pcs _ 1, run_succ_of_step 0 ht]
  rfl

end Sys2Proof.Machine
end

section
/-! PROOF. The words of the commands as numbers (R76, R77), and Static's two commands (R150, R151). -/

namespace Sys2Proof

/-- A command word is its pc above its low half (R70). -/
theorem cmdWord_eq_pc_append (pc : Pc) (r : BitVec 29) (o : Dir) (op : BitVec 2) :
    cmdWord pc r o op = pc ++ (r ++ BitVec.ofBool o ++ op) := by
  rw [cmdWord, BitVec.append_assoc, BitVec.append_assoc, BitVec.append_assoc]
  rfl

theorem encodedAs_predictOf (st : Strategy) (pc : Pc) : EncodedAs st (predictOf st pc) (pc ++ 0x00000001#32) := by
  have hw : encodePredict pc = pc ++ 0x00000001#32 := cmdWord_eq_pc_append ..
  rw [← hw]
  exact ⟨encode_predictOf st pc, decode_encodePredict st pc⟩

theorem encodedAs_trainOf (st : Strategy) (pc : Pc) (o : Dir) :
    EncodedAs st (trainOf st pc o) (pc ++ if o then 0x00000006#32 else 0x00000002#32) := by
  have hw : encodeTrain pc o = pc ++ if o then 0x00000006#32 else 0x00000002#32 := by
    cases o <;> exact cmdWord_eq_pc_append ..
  rw [← hw]
  exact ⟨encode_trainOf st pc o, decode_encodeTrain st pc o⟩

namespace Machine

/-- Settles O40: a Static engine holds the (empty) state both commands select, and their response is all they
write. -/
theorem staticCommands : Obligations.StaticCommands :=
  ⟨fun pc o => ⟨encodedAs_predictOf .static pc, encodedAs_trainOf .static pc o⟩,
    fun _ pc o he hs => ⟨exec_staticPredict pc he hs, exec_staticTrain pc o he hs⟩⟩

end Machine
end Sys2Proof
end

section
/-! PROOF. The first prediction after a reset: what each strategy predicts from its reset state (R41, R44 to R46). -/

namespace Sys2Proof.Machine

/-- Every counter of a Gshare engine is WN at reset (R41), which predicts NotTaken. -/
theorem gsharePred_reset (w : Nat) (pc : Pc) : gsharePred w ⟨0#32, []⟩ pc = false := rfl

/-- At reset the global and the local counter are both WN (R41, R44), so the choice does not matter. -/
theorem tournPred_reset (p : Nat) (pc : Pc) : tournPred p ⟨0#32, [], [], [], []⟩ pc = false := rfl

/-- The sum of an all-zero row is 0, which predicts Taken whatever the history (R112). -/
theorem percPred_of_zero {p : PerceptronState} {r : Fin 512} (h : PercHist) (hb : p.pbias[r].toInt = 0)
    (hw : ∀ i : Fin 12, p.pw[r][i].toInt = 0) : percPred (percSum p.pbias[r] p.pw[r] h) = true := by
  rw [percSum_eq_rowSum, rowSum_of_zero h hb hw]
  rfl

/-- The prediction of every strategy from its reset state, with a Perceptron that starts at ZERO. -/
theorem prediction_resetStrat {c : CfgWord} (d n : Nat) (pc : Pc) (hc : cfgLegal c = true)
    (hz : cfgStrategy c = .perceptron → cfgPinit c = false) :
    (resetStrat c d n).prediction c pc =
      decide (cfgStrategy c = .static ∨ cfgStrategy c = .perceptron) := by
  cases hst : cfgStrategy c with
  | static => rw [resetStrat_of_static d n hc hst]; rfl
  | gshare => rw [resetStrat_of_gshare d n hc hst]; exact gsharePred_reset _ pc
  | tournament => rw [resetStrat_of_tournament d n hc hst]; exact tournPred_reset _ pc
  | perceptron =>
    rw [resetStrat_of_perceptron d n hc hst, hz hst]
    exact percPred_of_zero _ (resetPerceptron_zero_pbias_toInt d n _) (resetPerceptron_zero_pw_toInt d n _)

/-- Settles O51: the reset state meets the invariant, so the PREDICT answers that state's prediction. -/
theorem firstPredictionAfterReset : Obligations.FirstPredictionAfterReset := by
  intro c d n pc hc hz
  refine ⟨_, (resetWith_inv c d n [.command (encodePredict pc)]).step_predict rfl, ?_⟩
  have he : (resetWith c d n [.command (encodePredict pc)]).cfgErr = false := by simp [hc]
  rw [State.respond_responses, State.legalErr_of_not_cfgErr he, (responseWordLayout _).1, resetWith_strat,
    resetWith_cfg, prediction_resetStrat d n pc hc hz]
  simp

end Sys2Proof.Machine
end

section
/-! PROOF. Gshare's two commands (R160 to R162), and one counter under consecutive Taken trainings (R163). -/

namespace Sys2Proof.Machine

/-! ## PREDICT and TRAIN in the terms of R160 to R162 -/

theorem gsharePred_eq_true_iff (w : Nat) (g : GshareState) (pc : Pc) :
    gsharePred w g pc = true ↔ 2 ≤ (readPht g.pht ((pc.toNat % 2 ^ w) ^^^ g.ghr.toNat)).toNat := by
  rw [gsharePred, ctrPred_eq_true_iff, gsIdx_eq]

section
variable (w : Nat) (g : GshareState) (pc : Pc) (o : Dir)

/-- The index of the counter read and moved is the one the history before the command selects (R161). -/
theorem readPht_gshareTrained_same {j : Nat} (hj : (pc.toNat % 2 ^ w) ^^^ g.ghr.toNat = j) :
    readPht (gshareTrained w g pc o).pht j = satUpdate (readPht g.pht j) o := by
  rw [← hj, ← gsIdx_eq]
  exact tableRead_write_same ..

theorem readPht_gshareTrained_ne {j : Nat} (hj : j ≠ (pc.toNat % 2 ^ w) ^^^ g.ghr.toNat) :
    readPht (gshareTrained w g pc o).pht j = readPht g.pht j := by
  rw [← gsIdx_eq] at hj
  exact tableRead_write_ne _ _ _ hj

end

/-- Settles O41: the engine answers `gsharePred`, which is the output of the counter selected. -/
theorem gsharePredictReadsCounter : Obligations.GsharePredictReadsCounter := by
  refine ⟨encodedAs_predictOf .gshare, fun s g pc he hs => ?_⟩
  simp only [← gsharePred_eq_true_iff, ← (responseWordLayout _).1]
  exact exec_gsharePredict pc he hs

/-- Settles O42: the engine is left with `gshareTrained`, read here at the counter selected, at the others, and as a
history. -/
theorem gshareTrainMovesOneCounter : Obligations.GshareTrainMovesOneCounter := by
  refine ⟨encodedAs_trainOf .gshare, fun s g pc o he hs hw => ⟨_, exec_gshareTrain pc o he hs, ?_,
    fun j => readPht_gshareTrained_ne _ g pc o, shiftIn_toNat g.ghr o hw⟩⟩
  rw [readPht_gshareTrained_same _ g pc o rfl, satUpdate_toNat, counterMoved]

/-! ## Consecutive Taken trainings of one entry -/

/-- Commands that run one after another keep the configuration and the status they begin with (R23, R27). -/
theorem execs_keep_cfg_cfgErr {f : Nat → State} {is : Nat → Instr} {n : Nat}
    (h : ∀ k, k < n → exec (is k) (f k) = .next (f (k + 1))) {k : Nat} (hk : k ≤ n) :
    (f k).cfg = (f 0).cfg ∧ (f k).cfgErr = (f 0).cfgErr := by
  induction k with
  | zero => exact ⟨rfl, rfl⟩
  | succ k ih =>
    obtain ⟨hcfg, herr⟩ := ih (Nat.le_of_succ_le hk)
    obtain ⟨hcfg', herr', -⟩ := commandsKeepConfiguration _ _ _ (h k hk)
    exact ⟨hcfg'.trans hcfg, herr'.trans herr⟩

theorem gshareTrained_of_exec {s t : State} {g g' : GshareState} {pc : Pc} {o : Dir} (he : s.cfgErr = false)
    (hs : s.strat = .gshare g) (ht : t.strat = .gshare g') (h : exec (.gshareTrain pc o) s = .next t) :
    g' = gshareTrained (cfgG s.cfg) g pc o := by
  rw [exec_gshareTrain pc o he hs] at h
  cases h
  exact (Strat.gshare.inj ht).symm

/-- Taken trainings that each select entry `j` apply Taken updates to it, whatever the histories between them. -/
theorem readPht_eq_iterate_satUpdate {w n j : Nat} {gs : Nat → GshareState} {pcs : Nat → Pc}
    (h : ∀ k, k < n → gs (k + 1) = gshareTrained w (gs k) (pcs k) true ∧
      ((pcs k).toNat % 2 ^ w) ^^^ (gs k).ghr.toNat = j) :
    readPht (gs n).pht j = (fun c => satUpdate c true)^[n] (readPht (gs 0).pht j) := by
  induction n with
  | zero => rfl
  | succ n ih =>
    obtain ⟨hg, hj⟩ := h n n.lt_succ_self
    rw [hg, readPht_gshareTrained_same w _ _ true hj, ih fun k hk => h k (hk.trans n.lt_succ_self),
      Function.iterate_succ_apply']

/-- Settles O43: under one configuration the run iterates the counter's Taken update, whose law is known. -/
theorem gshareCounterRises : Obligations.GshareCounterRises := by
  intro f gs pcs n j he hgs hrun hwn
  have hread : readPht (gs n).pht j = (fun c => satUpdate c true)^[n] ctrWN := by
    rw [← hwn]
    refine readPht_eq_iterate_satUpdate (w := cfgG (f 0).cfg) (pcs := pcs) fun k hk => ⟨?_, (hrun k hk).2⟩
    obtain ⟨hcfg, herr⟩ := execs_keep_cfg_cfgErr (fun k hk => (hrun k hk).1) hk.le
    rw [← hcfg]
    exact gshareTrained_of_exec (herr.trans he) (hgs k hk.le) (hgs (k + 1) hk) (hrun k hk).1
  rw [hread]
  refine ⟨satUpdate_true_iterate_toNat ctrWN n, ?_⟩
  rintro rfl
  decide

end Sys2Proof.Machine
end

section
/-! PROOF. The Tournament's two commands (R173, R175), and the choice table on agreement (R176). -/

namespace Sys2Proof.Machine

/-! ## A table after a write, read anywhere -/

section
variable {α : Type} [DecidableEq α] (init : α)

theorem tableRead_write (t : Table α) (i j : Nat) (v : α) :
    tableRead init (tableWrite init t i v) j = if j = i then v else tableRead init t j := by
  split
  next h => rw [h, tableRead_write_same]
  next h => exact tableRead_write_ne init t v h

/-- Writing back the entry read leaves a table in canonical form equal as data. -/
theorem tableWrite_read_self {size i : Nat} {t : Table α} (ht : Table.wf init size t) (hi : i < size) :
    tableWrite init t i (tableRead init t i) = t := by
  refine Table.wf_ext (tableWrite_wf _ ht hi) ht fun j => ?_
  rw [tableRead_write]
  split
  next h => rw [h]
  next => rfl

end

/-! ## TOURN.PREDICT -/

/-- R115, R173: the output of the counter the choice selects, the local one by the history `mask_P(pc)` selects. -/
theorem tournPred_eq_true_iff (p : Nat) (x : TournamentState) (pc : Pc) :
    tournPred p x pc = true ↔
      2 ≤ (if 2 ≤ (readCt x.ct x.ghr.toNat).toNat then readPht x.pht x.ghr.toNat
        else readLpt x.lpt (readLht x.lht (pc.toNat % 2 ^ p)).toNat).toNat := by
  rw [← lslot_eq, ← ctrPred_eq_true_iff, apply_ite ctrPred, ← arb_eq_ite]
  rfl

/-- Settles O44: the engine answers `tournPred`, which is the output of the counter chosen. -/
theorem tournPredictArbitrates : Obligations.TournPredictArbitrates := by
  refine ⟨encodedAs_predictOf .tournament, fun s x pc he hs => ?_⟩
  simp only [← tournPred_eq_true_iff, ← (responseWordLayout _).1]
  exact exec_tournPredict pc he hs

/-! ## TOURN.TRAIN: each table of the trained state, read anywhere, in the terms of R175 -/

section
variable (g l p : Nat) (x : TournamentState) (pc : Pc) (o : Dir) (j : Nat)

theorem readPht_tournTrained : readPht (tournTrained g l p x pc o).pht j =
    if j = x.ghr.toNat then satUpdate (readPht x.pht x.ghr.toNat) o else readPht x.pht j :=
  tableRead_write ..

/-- The local counter trained is the one the local history before the command selects. -/
theorem readLpt_tournTrained : readLpt (tournTrained g l p x pc o).lpt j =
    if j = (readLht x.lht (pc.toNat % 2 ^ p)).toNat
    then satUpdate (readLpt x.lpt (readLht x.lht (pc.toNat % 2 ^ p)).toNat) o else readLpt x.lpt j := by
  rw [← lslot_eq]
  exact tableRead_write ..

/-- The choice is trained on the two predictions made before the command. -/
theorem readCt_tournTrained : readCt (tournTrained g l p x pc o).ct j =
    if j = x.ghr.toNat
    then choiceUpdate (readCt x.ct x.ghr.toNat) (ctrPred (readPht x.pht x.ghr.toNat))
      (ctrPred (readLpt x.lpt (readLht x.lht (pc.toNat % 2 ^ p)).toNat)) o
    else readCt x.ct j := by
  rw [← lslot_eq]
  exact tableRead_write ..

theorem readLht_tournTrained : readLht (tournTrained g l p x pc o).lht j =
    if j = pc.toNat % 2 ^ p then shiftIn (readLht x.lht (pc.toNat % 2 ^ p)) o l else readLht x.lht j := by
  rw [← lslot_eq]
  exact tableRead_write ..

end

theorem satUpdate_toNat_eq_counterMoved (c : Counter) (o : Dir) : (satUpdate c o).toNat = counterMoved c o :=
  satUpdate_toNat c o

/-- R116 as one equation: on disagreement the counter moves up or down as the global prediction was right or wrong. -/
theorem choiceUpdate_toNat (c : Counter) (gp lp o : Dir) :
    (choiceUpdate c gp lp o).toNat = if gp = lp then c.toNat else counterMoved c (decide (gp = o)) := by
  rw [choiceUpdate, apply_ite BitVec.toNat]
  congr 1
  by_cases h : gp = o
  · rw [if_pos h, decide_eq_true h, satUpdate_toNat_eq_counterMoved]
  · rw [if_neg h, decide_eq_false h, satUpdate_toNat_eq_counterMoved]

/-- Settles O45: the engine is left with `tournTrained`; each of its tables is read at the entry written and at the
others, and `GHR` as a shifted history. -/
theorem tournTrainUpdates : Obligations.TournTrainUpdates := by
  refine ⟨encodedAs_trainOf .tournament, fun s x pc o he hs hg hl => ⟨_, exec_tournTrain pc o he hs, ?_⟩⟩
  refine ⟨?_, fun j hj => ?_, ?_, fun j hj => ?_, ?_, fun j hj => ?_, ?_, fun j hj => ?_, shiftIn_toNat x.ghr o hg⟩
  · rw [readPht_tournTrained, if_pos rfl, satUpdate_toNat_eq_counterMoved]
  · rw [readPht_tournTrained, if_neg hj]
  · rw [readLpt_tournTrained, if_pos rfl, satUpdate_toNat_eq_counterMoved]
  · rw [readLpt_tournTrained, if_neg hj]
  · rw [readCt_tournTrained, if_pos rfl, choiceUpdate_toNat]
    rfl
  · rw [readCt_tournTrained, if_neg hj]
  · rw [readLht_tournTrained, if_pos rfl, shiftIn_toNat _ o hl]
  · rw [readLht_tournTrained, if_neg hj]

/-! ## The choice table on agreement -/

/-- R176: on agreement the choice counter is written back as it was read. -/
theorem tournTrained_ct_of_agree {g l p : Nat} {x : TournamentState} {pc : Pc} (o : Dir)
    (hx : (Strat.tournament x).InRange g l p)
    (h : 2 ≤ (readPht x.pht x.ghr.toNat).toNat ↔
      2 ≤ (readLpt x.lpt (readLht x.lht (pc.toNat % 2 ^ p)).toNat).toNat) :
    (tournTrained g l p x pc o).ct = x.ct := by
  obtain ⟨hghr, -, hct, -⟩ := hx
  rw [← lslot_eq] at h
  have hagree : ctrPred (tournRead p x pc).gc = ctrPred (tournRead p x pc).lc := decide_eq_decide.2 h
  rw [tournTrained, choiceUpdate_of_agree hagree]
  exact tableWrite_read_self ctrWT hct hghr

/-- What a TOURN.TRAIN that answers leaves of a Tournament engine: the state as it was, with CFG_INVALID (R212), or
trained. -/
theorem tournTrained_or_eq_of_exec {s t : State} {x y : TournamentState} {pc : Pc} {o : Dir}
    (hs : s.strat = .tournament x) (h : exec (.tournTrain pc o) s = .next t) (ht : t.strat = .tournament y) :
    y = x ∨ y = tournTrained (cfgG s.cfg) (cfgL s.cfg) (cfgP s.cfg) x pc o := by
  cases he : s.cfgErr with
  | true =>
    rw [exec_of_cfgErr he] at h
    cases h
    exact .inl (Strat.tournament.inj (ht.symm.trans hs))
  | false =>
    rw [exec_tournTrain pc o he hs] at h
    cases h
    exact .inr (Strat.tournament.inj ht).symm

/-- Settles O46: a trained choice table is the one before on agreement, and reads as before off `CT[GHR]` always. -/
theorem choiceUnchangedOnAgreement : Obligations.ChoiceUnchangedOnAgreement := by
  refine ⟨fun s t x y pc o hinv hs h ht hagree => ?_, fun s t x y pc o hs h ht j hj => ?_⟩
  · have hct : y.ct = x.ct := by
      rcases tournTrained_or_eq_of_exec hs h ht with rfl | rfl
      · rfl
      · exact tournTrained_ct_of_agree o (hinv.inRange_of_strat_eq hs) hagree
    exact ⟨hct, fun j => by rw [hct]⟩
  · rcases tournTrained_or_eq_of_exec hs h ht with rfl | rfl
    · rfl
    · rw [readCt_tournTrained, if_neg hj]

end Sys2Proof.Machine
end

section
/-! PROOF. The Perceptron's two commands (R191, R192), a confident row (R193) and zero weights (R194). -/

namespace Sys2Proof.Machine

theorem readRow_of_rowReadable {p : PerceptronState} {r : Fin 512} (h : RowReadable p r) :
    readRow p r = some (p.pbias[r], p.pw[r]) := readRow_eq_some.2 ⟨rowReadable_iff.1 h, rfl, rfl⟩

/-! ## PERC.PREDICT -/

/-- Settles O47: the engine answers the sign of the selected row's sum, which is the dot product written out. -/
theorem percPredictSignOfSum : Obligations.PercPredictSignOfSum := by
  refine ⟨encodedAs_predictOf .perceptron, fun s p pc r he hs hr hrow => ?_⟩
  obtain rfl : r = percRow pc := Fin.ext hr
  simp only [← percPred_eq_true, ← percSum_eq_rowSum, ← (responseWordLayout _).1]
  exact exec_percPredict pc he hs (readRow_of_rowReadable hrow)

/-- Settles O52: a row of zeros is readable and sums to 0, which is not negative. -/
theorem zeroWeightsPredictTaken : Obligations.ZeroWeightsPredictTaken := by
  intro s p pc he hs hz
  have hsum (r : Fin 512) : rowSum p r p.ghr = 0 := rowSum_of_zero _ (hz r).1 (hz r).2
  have hrow : RowReadable p (percRow pc) :=
    ⟨by rw [(hz _).1]; decide, fun i => by rw [(hz _).2]; decide⟩
  have hexec := percPredictSignOfSum.2 s p pc (percRow pc) he hs rfl hrow
  rw [hsum, if_pos le_rfl] at hexec
  exact ⟨hsum, hexec⟩

/-! ## PERC.TRAIN -/

/-- R113 on a row of the table: the decision was wrong, or the sum is within the threshold. -/
theorem percTrainEn_row_iff {p : PerceptronState} {r : Fin 512} {h : PercHist} {o : Dir} :
    percTrainEn (percSum p.pbias[r] p.pw[r] h) o = true ↔
      decide (0 ≤ rowSum p r h) ≠ o ∨ |rowSum p r h| ≤ 37 := by
  rw [percSum_eq_rowSum, percTrainEn_iff_abs, percPred]

section
variable {p : PerceptronState} {r : Fin 512} {b : Weight} {ws : Vector Weight 12} {o : Dir}

theorem percTrained_of_trainEn (h : percTrainEn (percSum b ws p.ghr) o = true) :
    percTrained p r b ws o =
      { writeRow p r (trainBias b o) (trainWeights ws p.ghr o) with ghr := shiftIn p.ghr o 12 } := by
  simp only [percTrained, if_pos h]

/-- Without training the history alone moves (R192). -/
theorem percTrained_of_not_trainEn (h : ¬percTrainEn (percSum b ws p.ghr) o = true) :
    percTrained p r b ws o = { p with ghr := shiftIn p.ghr o 12 } := by
  simp only [percTrained, if_neg h]

/-- A command that trains moves the bias and the weights of its row (R114). -/
theorem percTrained_row_same (h : percTrainEn (percSum b ws p.ghr) o = true) :
    (percTrained p r b ws o).pbias[r] = trainBias b o ∧
      (percTrained p r b ws o).pw[r] = trainWeights ws p.ghr o := by
  simp only [percTrained_of_trainEn h, writeRow_pbias, writeRow_pw, ↓reduceIte, and_self]

/-- A command writes its own row at most (R192). -/
theorem percTrained_row_ne {q : Fin 512} (hq : q ≠ r) :
    (percTrained p r b ws o).pbias[q] = p.pbias[q] ∧ (percTrained p r b ws o).pw[q] = p.pw[q] := by
  by_cases h : percTrainEn (percSum b ws p.ghr) o = true
  · simp only [percTrained_of_trainEn h, writeRow_pbias, writeRow_pw, if_neg hq, and_self]
  · rw [percTrained_of_not_trainEn h]
    exact ⟨rfl, rfl⟩

end

/-- Settles O48: the engine is left with `percTrained`, read here at its row, with and without training, at the
other rows, and as a history. -/
theorem percTrainUpdatesRow : Obligations.PercTrainUpdatesRow := by
  refine ⟨encodedAs_trainOf .perceptron, fun s p pc o r he hs hr hrow => ?_⟩
  obtain rfl : r = percRow pc := Fin.ext hr
  refine ⟨_, exec_percTrain pc o he hs (readRow_of_rowReadable hrow), fun htr => ?_, fun hntr => ?_,
    fun q hq => percTrained_row_ne hq, shiftIn_toNat p.ghr o le_rfl⟩
  · obtain ⟨hb, hw⟩ := percTrained_row_same (r := percRow pc) (percTrainEn_row_iff.2 htr)
    rw [hb, hw]
    exact ⟨trainBias_toInt _ o, trainWeights_toInt _ _ o⟩
  · rw [percTrained_of_not_trainEn (percTrainEn_row_iff.not.2 hntr)]
    exact ⟨rfl, rfl⟩

/-! ## A confident row -/

section
variable {p : PerceptronState} {r : Fin 512} {o : Dir}

/-- R193: past the threshold on the correct side the training condition is off, and the history alone moves. -/
theorem percTrained_of_confident (hy : 38 ≤ |rowSum p r p.ghr|) (ho : decide (0 ≤ rowSum p r p.ghr) = o) :
    percTrained p r p.pbias[r] p.pw[r] o = { p with ghr := shiftIn p.ghr o 12 } :=
  percTrained_of_not_trainEn <| percTrainEn_row_iff.not.2 fun h => h.elim (· ho) (by omega)

/-- A history that repeats the outcome is not moved by it. -/
theorem shiftIn_repeated (o : Dir) :
    shiftIn (if o then 0xFFF#12 else 0x000#12) o 12 = if o then 0xFFF#12 else 0x000#12 := by
  revert o; decide

theorem percTrained_eq_self_of_confident (hghr : p.ghr = if o then 0xFFF#12 else 0x000#12)
    (hy : 38 ≤ |rowSum p r p.ghr|) (ho : decide (0 ≤ rowSum p r p.ghr) = o) :
    percTrained p r p.pbias[r] p.pw[r] o = p := by
  have hshift : shiftIn p.ghr o 12 = p.ghr := by rw [hghr, shiftIn_repeated]
  rw [percTrained_of_confident hy ho, hshift]

end

/-- What a PERC.TRAIN that answers leaves of a Perceptron engine: the state trained on its row. -/
theorem percTrained_of_exec {s t : State} {p q : PerceptronState} {pc : Pc} {o : Dir} (he : s.cfgErr = false)
    (hs : s.strat = .perceptron p) (h : exec (.percTrain pc o) s = .next t) (ht : t.strat = .perceptron q) :
    q = percTrained p (percRow pc) p.pbias[percRow pc] p.pw[percRow pc] o := by
  by_cases hrow : RowReadable p (percRow pc)
  · rw [exec_percTrain pc o he hs (readRow_of_rowReadable hrow)] at h
    cases h
    exact (Strat.perceptron.inj ht).symm
  · rw [exec_percTrain_fault o he hs (readRow_eq_none_iff_not_rowReadable.2 hrow)] at h
    cases h

namespace State.Inv
variable {s : State} (hs : s.Inv)
include hs

/-- A Perceptron state exists only under a legal configuration (R22). -/
theorem cfgErr_eq_false_of_perceptron {p : PerceptronState} (hp : s.strat = .perceptron p) :
    s.cfgErr = false := by
  refine (Bool.not_eq_true _).mp fun he => ?_
  cases (hs.strat_eq_absent he).symm.trans hp

/-- While training leaves the strategy state as it is, a TRAIN adds its response and changes nothing else. -/
theorem step_train_of_trained_eq_self {pc : Pc} {o : Dir} {rest : List HostInput} (he : s.cfgErr = false)
    (hfix : s.strat.trained s.cfg pc o = s.strat) (hi : s.inputs = .command (encodeTrain pc o) :: rest) :
    step s = .next (State.respond { s with inputs := rest } .ok false) := by
  rw [step_of_decode hi he (decode_encodeTrain _ pc o)]
  refine ((hs.with_inputs rest).exec_trainOf he pc o).trans ?_
  simp only [hfix, State.setStrat]

/-- Any number of such TRAINs leave the strategy state as it is. -/
theorem run_trains_of_trained_eq_self {pc : Pc} {o : Dir} (he : s.cfgErr = false)
    (hfix : s.strat.trained s.cfg pc o = s.strat) (n : Nat) :
    ∃ t : State, core.run n { s with inputs := List.replicate n (.command (encodeTrain pc o)) } = .next t ∧
      t.strat = s.strat := by
  induction n generalizing s with
  | zero => exact ⟨_, rfl, rfl⟩
  | succ n ih =>
    have hstep := (hs.with_inputs (List.replicate (n + 1) (.command (encodeTrain pc o)))).step_train_of_trained_eq_self
      he hfix rfl
    obtain ⟨t, hrun, ht⟩ := ih (hs.respond .ok false) he hfix
    exact ⟨t, (run_succ_of_step n hstep).trans hrun, ht⟩

end State.Inv

/-- Settles O49: a confident TRAIN moves the history alone, and not even that when the history repeats the
outcome. -/
theorem confidentRowStopsChanging : Obligations.ConfidentRowStopsChanging := by
  refine ⟨fun s t p q pc o hs h ht he hy ho => ?_, fun s p pc o n hinv hs hghr hy ho => ?_⟩
  · rw [percTrained_of_exec he hs h ht, percTrained_of_confident hy ho]
    exact ⟨rfl, rfl⟩
  · refine hinv.run_trains_of_trained_eq_self (hinv.cfgErr_eq_false_of_perceptron hs) ?_ n
    rw [hs, Strat.trained, percTrained_eq_self_of_confident hghr hy ho]

end Sys2Proof.Machine
end

section
/-! PROOF. Steps that run no command: an idle engine (R227), and the words a check turns away (R213 to R215). -/

namespace Sys2Proof.Machine

section
variable {s : State}

theorem step_of_no_inputs (hi : s.inputs = []) : step s = .next s := by
  simp only [step, accept, hi]

theorem step_of_decode_error {w : CmdWord} {rest : List HostInput} {e : Err} (hi : s.inputs = .command w :: rest)
    (he : s.cfgErr = false) (hd : decode (cfgStrategy s.cfg) w = .error e) :
    step s = .next (State.respond { s with inputs := rest } e false) := by
  rcases step_command_cases hi with ⟨he', -⟩ | ⟨e', -, hd', hstep⟩ | ⟨i, -, hd', -⟩
  · cases he.symm.trans he'
  · cases hd.symm.trans hd'; exact hstep
  · cases hd.symm.trans hd'

end

/-- Settles O17: with no move to accept, accepting settles in the state itself. -/
theorem idleEngineHoldsItsState : Obligations.IdleEngineHoldsItsState := fun _ => step_of_no_inputs

/-- R78: the illegal words, by the number in `OP`. -/
theorem decode_illegal_of_toNat (st : Strategy) {w : CmdWord} (h : w.toNat % 4 = 0 ∨ w.toNat % 4 = 3) :
    decode st w = .error .illegalOp :=
  decode_illegal st (h.imp (cmdOp_eq_iff w 0b00#2).2 (cmdOp_eq_iff w 0b11#2).2)

/-- R79: the reserved-bit words, by the numbers in the fields. -/
theorem decode_reserved_of_toNat (st : Strategy) {w : CmdWord} (hop : ¬(w.toNat % 4 = 0 ∨ w.toNat % 4 = 3))
    (h : w.toNat / 8 % 2 ^ 29 ≠ 0 ∨ (w.toNat % 4 = 1 ∧ w.toNat / 4 % 2 = 1)) :
    decode st w = .error .rsvdNonzero := by
  have hlegal : w.toNat % 4 = 1 ∨ w.toNat % 4 = 2 := by omega
  refine decode_reserved st (h.imp (fun hr => ⟨?_, mt (cmdRsvd_eq_zero_iff w).1 hr⟩) ?_)
  · exact hlegal.imp (cmdOp_eq_iff w 0b01#2).2 (cmdOp_eq_iff w 0b10#2).2
  · exact And.imp (cmdOp_eq_iff w 0b01#2).2 (cmdOut_eq_true_iff w).2

/-- Settles O18: the check of `CFG_ERR` comes before decoding, and the class of the word gives the decoding error. -/
theorem rejectedCommandsAnswerTheirError : Obligations.RejectedCommandsAnswerTheirError :=
  fun _ _ _ hi => ⟨fun he => step_command_of_cfgErr he hi,
    fun he hill => step_of_decode_error hi he (decode_illegal_of_toNat _ hill),
    fun he hop hres => step_of_decode_error hi he (decode_reserved_of_toNat _ hop hres)⟩

end Sys2Proof.Machine
end

section
/-! PROOF. Engines' configurations and their sources of draws (R225, R244): given at the start, and no step changes
a source. -/

namespace Sys2Proof.Machine

/-! ## Engines at their start -/

section
variable (cs : List CfgWord)

theorem startEngines_getElem {k : Nat} (hk : k < (startEngines cs).length) :
    (startEngines cs)[k] = resetWith (cs[k]'(startEngines_length cs ▸ hk)) k 0 [] := List.getElem_mapIdx

theorem startEngines_map_cfg : (startEngines cs).map State.cfg = cs := by
  refine List.ext_getElem (by simp) fun k _ _ => ?_
  simp [startEngines_getElem]

theorem startEngines_map_source : (startEngines cs).map State.source = List.range cs.length := by
  refine List.ext_getElem (by simp) fun k _ _ => ?_
  simp [startEngines_getElem]

theorem startEngines_ownSources : OwnSources (startEngines cs) := by
  rw [OwnSources, startEngines_map_source]
  exact List.nodup_range

theorem startEngines_inv {e : State} (he : e ∈ startEngines cs) : e.Inv := by
  obtain ⟨k, hk, rfl⟩ := List.mem_iff_getElem.1 he
  rw [startEngines_getElem]
  exact resetWith_inv _ _ _ _

end

/-! ## Engines that step -/

/-- A reset draws from the source the engine has, and nothing else a step does touches it (R244). -/
theorem step_source {s t : State} (h : step s = .next t) : t.source = s.source := by
  rcases step_cases s with ⟨-, hs⟩ | ⟨_, _, _, -, hs⟩ | ⟨_, _, -, -, hs⟩ | ⟨_, _, _, -, -, -, hs⟩ |
    ⟨_, _, _, -, -, -, hs⟩ <;> rw [hs] at h
  · cases h; rfl
  · cases h; rfl
  · cases h; rfl
  · cases h; rfl
  · obtain ⟨-, -, -, -, -, hsource⟩ := commandsKeepConfiguration _ _ _ h
    exact hsource

theorem stepAt_map_source {es fs : List State} {k : Nat} (h : stepAt es k = .next fs) :
    fs.map State.source = es.map State.source := by
  rcases stepAt_next h with ⟨-, rfl⟩ | ⟨s, t, hk, hs, rfl⟩
  · rfl
  · obtain ⟨hlt, rfl⟩ := List.getElem?_eq_some_iff.1 hk
    rw [List.map_set, step_source hs, ← List.map_set, List.set_getElem_self]

theorem stepAt_ownSources {es fs : List State} {k : Nat} (h : stepAt es k = .next fs) (hes : OwnSources es) :
    OwnSources fs := by
  rw [OwnSources, stepAt_map_source h]
  exact hes

/-- Settles O55: the sources at the start are the engines' numbers, and every step keeps the list of sources. -/
theorem enginesKeepTheirOwnDraws : Obligations.EnginesKeepTheirOwnDraws :=
  ⟨fun cs => ⟨startEngines_map_cfg cs, startEngines_ownSources cs, fun _ => startEngines_inv cs⟩,
    fun _ _ _ h => ⟨stepAt_map_source h, stepAt_ownSources h⟩⟩

end Sys2Proof.Machine
end

section
/-! PROOF. What a reset leaves (R240 to R244): the invariant from `State.reset` on, and a strategy state that depends
on the configuration word alone unless the weights are drawn. -/

namespace Sys2Proof.Machine

/-- Settles O11: `State.reset` is what a reset with log entry 2's word leaves. -/
theorem resetStateSatisfiesInvariant : Obligations.ResetStateSatisfiesInvariant := by
  rw [Obligations.ResetStateSatisfiesInvariant, reset_eq_resetWith]
  exact resetWith_inv _ _ _ _

/-- A Perceptron that starts at ZERO draws nothing (R45). -/
theorem resetPerceptron_zero_congr_draw (d n d' n' : Nat) :
    resetPerceptron false d n = resetPerceptron false d' n' := by
  simp only [resetPerceptron, Bool.false_eq_true, if_false]

/-- Only a Perceptron that starts SEEDED uses the draw, its source `d` and its number `n` (R45, R244). -/
theorem resetStrat_congr_draw {c : CfgWord} (hz : cfgStrategy c = .perceptron → cfgPinit c = false)
    (d n d' n' : Nat) : resetStrat c d n = resetStrat c d' n' := by
  cases hc : cfgLegal c with
  | false => rw [resetStrat_of_illegal d n hc, resetStrat_of_illegal d' n' hc]
  | true =>
    cases hst : cfgStrategy c with
    | static => rw [resetStrat_of_static d n hc hst, resetStrat_of_static d' n' hc hst]
    | gshare => rw [resetStrat_of_gshare d n hc hst, resetStrat_of_gshare d' n' hc hst]
    | tournament => rw [resetStrat_of_tournament d n hc hst, resetStrat_of_tournament d' n' hc hst]
    | perceptron =>
      rw [resetStrat_of_perceptron d n hc hst, resetStrat_of_perceptron d' n' hc hst, hz hst,
        resetPerceptron_zero_congr_draw d n d' n']

/-- Settles O10: of the state before, a reset takes over only the draw's source and number and the moves to come. -/
theorem resetForgetsEverything : Obligations.ResetForgetsEverything := by
  intro s₁ s₂ t₁ t₂ c l₁ l₂ r₁ r₂ hi₁ hi₂ hz h₁ h₂
  cases (step_of_reset hi₁).symm.trans h₁
  cases (step_of_reset hi₂).symm.trans h₂
  exact ⟨rfl, rfl, resetStrat_congr_draw hz _ _ _ _, rfl, rfl⟩

end Sys2Proof.Machine
end

section
/-! PROOF. A command of another strategy than the engine's is refused (log entry 6). -/

namespace Sys2Proof.Machine

/-- A command that picks only states of kind `st` is refused where the machine holds a state of another kind,
or none. -/
theorem onSelected_refused {α : Type} {s : State} {st : Strategy} {pick : Strat → Option α}
    {k : α → Host.Outcome State Fault Refusal} (he : s.cfgErr = false) (hk : s.strat.kind ≠ some st)
    (hpick : ∀ x, pick s.strat = some x → s.strat.kind = some st) :
    onSelected s pick k = .refused .otherStrategy := by
  rcases onSelected_cases s pick k with ⟨he', -⟩ | ⟨x, -, hx, -⟩ | ⟨-, -, hrefused⟩
  · cases he.symm.trans he'
  · exact absurd (hpick x hx) hk
  · exact hrefused

/-- Settles O28: each command picks the state of its own strategy only. -/
theorem otherStrategyRefused : Obligations.OtherStrategyRefused := by
  intro i s he hk
  cases i with
  | staticPredict | staticTrain =>
    exact onSelected_refused he hk fun _ hx => Strat.kind_eq_static.2 (static?_eq_some.1 hx)
  | gsharePredict | gshareTrain =>
    exact onSelected_refused he hk fun g hx => Strat.kind_eq_gshare.2 ⟨g, gshare?_eq_some.1 hx⟩
  | tournPredict | tournTrain =>
    exact onSelected_refused he hk fun t hx => Strat.kind_eq_tournament.2 ⟨t, tournament?_eq_some.1 hx⟩
  | percPredict | percTrain =>
    exact onSelected_refused he hk fun p hx => Strat.kind_eq_perceptron.2 ⟨p, perceptron?_eq_some.1 hx⟩

end Sys2Proof.Machine
end
